-- ==== Sys2Proof/Word.lean ====
section
/-! DEFINITION. The value types of the block and the names of its three channels
(10_state R21 to R24, R36; 00_scope R8). A timestamp or deadline in microseconds is a `Nat`: the spec gives it
64 bits and the premise that no sum reaches 2^64, under which "a model may use unbounded naturals"
(20_memory R73; log 1). -/

namespace Sys2Proof

/-- One byte of the stream, and the 8-bit fields `amplitude`, `dec.cnt`, `dec.hdr[i]`, `dec.pl[i]`
(00_scope R10). -/
abbrev Byte := BitVec 8

/-- `durationMillis`, the only multi-byte quantity of the protocol (20_memory R64). -/
abbrev Millis := BitVec 16

/-- A stored full period in microseconds: 20 bits (10_state R23). -/
abbrev Period := BitVec 20

/-- An analog output level: 10 bits (10_state R36). -/
abbrev Level := BitVec 10

/-- The three channels (10_state R21): Vibration-A, Vibration-B, Buzzer. -/
inductive ChannelId where
  | VA
  | VB
  | BZ
  deriving DecidableEq, Repr

end Sys2Proof
end

