-- ==== Sys2Proof/Config.lean ====
section
/-! DEFINITION. The compiled-in constants (00_scope R7), the open parameters with the values the model
takes for them (00_scope R8), and the one free value. -/

namespace Sys2Proof

/-- The two readings of `now - deadline`, `/` and `mod` that the spec describes (00_scope R8,
41_pulse_scheduler R136 and R141). -/
inductive ElapsedArith where
  /-- Mathematical integers, floor division, remainder 0 or 1: the spec's choice (D7). -/
  | floorInt
  /-- Unsigned 64-bit arithmetic with wrap-around: the alternative of R141. -/
  | wrapU64
  deriving DecidableEq, Repr

namespace Config

/-- `START_MARKER` (00_scope R7, 30_encoding R81). -/
@[simp] def startMarker : Byte := 0xAA

/-- `TICK_PERIOD_US`. -/
@[simp] def tickPeriodUs : Nat := 1000

/-- `TRIG_WIDTH_US`. -/
@[simp] def trigWidthUs : Nat := 5000

/-- `US_PER_SECOND`. -/
@[simp] def usPerSecond : Nat := 1000000

/-- `US_PER_MS`. -/
@[simp] def usPerMs : Nat := 1000

/-- `AMP_SCALE`. -/
@[simp] def ampScale : Nat := 4

/-- `SRC_VIBA`, the ASCII code of 'v' (PRESUMED by the spec itself, 93_implementation_defined G1; log 12). -/
@[simp] def srcViba : Byte := 0x76

/-- `SRC_VIBB`, the ASCII code of 'w' (log 12). -/
@[simp] def srcVibb : Byte := 0x77

/-- `SRC_BUZZ`, the ASCII code of 'b' (log 12). -/
@[simp] def srcBuzz : Byte := 0x62

/-- `SRC_COMB`, the ASCII code of 'c' (log 12). -/
@[simp] def srcComb : Byte := 0x63

/-- `ELAPSED_ARITH` at the value the spec takes (00_scope R8, D7; log 7). -/
def elapsedArith : ElapsedArith := .floorInt

/-- `T_RESET`, an open parameter: DESIGN CHOICE 0, the value of the spec's vectors (log 2). -/
def tReset : Nat := 0

/-- `TICK_T0`, an open parameter: DESIGN CHOICE 1000, the default of the spec's vectors (log 2). -/
def tickT0 : Nat := 1000

/-- FREE VALUE: the direction a tick writes for an active alternating channel whose half-period is 0.
The case is in no reachable state, and there a model may "return any value" (41_pulse_scheduler R148,
93_implementation_defined U2; log 8). -/
opaque directionAtZeroHalf : ChannelId → Nat → Nat → Period → Bool

end Config

end Sys2Proof
end

