-- ==== Sys2Proof/Syntax.lean ====
section
/-! DEFINITION. The block's operations as syntax: one constructor per row of spec/opcode_table.json
(00_scope R9, 30_encoding R86). A frame keeps every byte of its payload, so that nothing on the wire is
lost between decoding and encoding. -/

namespace Sys2Proof

/-- A 4-byte payload field group (30_encoding R84, R89). -/
structure FieldGroup where
  /-- `amplitude`, all 256 values legal. -/
  amp : Byte
  /-- `frequencyHz`, 0 invalid. -/
  freq : Byte
  /-- `durationMillis`, 0 invalid. -/
  dur : Millis
  deriving DecidableEq, Repr

/-- The payload of `VIBA`, `VIBB` and `BUZZ` (30_encoding R87, R90 items c and d). -/
inductive SinglePayload where
  /-- `length >= 4`: one field group; the bytes after it are consumed and ignored. -/
  | operands (g : FieldGroup) (extra : List Byte)
  /-- `length < 4` (`SHORT_PAYLOAD`): the bytes that were sent, none of them read. -/
  | short (bytes : List Byte)
  deriving DecidableEq, Repr

/-- The payload of `COMB` (30_encoding R87, R90 items c and d). -/
inductive PairPayload where
  /-- `length >= 8`: Vibration-A's group, the Buzzer's group, and the ignored rest. -/
  | operands (a b : FieldGroup) (extra : List Byte)
  /-- `length < 8` (`SHORT_PAYLOAD`): the bytes that were sent, none of them read. -/
  | short (bytes : List Byte)
  deriving DecidableEq, Repr

/-- The operations of the block. -/
inductive Instr where
  /-- Vibration-A pulse (40_frame_commands R109). -/
  | viba (p : SinglePayload)
  /-- Vibration-B pulse, recorded and never emitted (R110). -/
  | vibb (p : SinglePayload)
  /-- Buzzer pulse (R111). -/
  | buzz (p : SinglePayload)
  /-- Vibration-A and Buzzer together (R112). -/
  | comb (p : PairPayload)
  /-- Accepted frame with an unknown selector (R113). -/
  | ign (source : Byte) (payload : List Byte)
  /-- Framing error: a 3-byte header whose first byte is not the start marker (R114). -/
  | drop (marker second third : Byte)
  /-- The scheduler's one operation: an event without an encoding (41_pulse_scheduler R130). -/
  | tick
  deriving DecidableEq, Repr

end Sys2Proof
end

