-- ==== Sys2Proof/WellFormed.lean ====
section
/-! DEFINITION. Which terms of `Instr` stand for something on the wire: the payload is as long as an
8-bit `length` can say (30_encoding R83), a short payload is short (R88), and the six kinds exclude each
other (R86). -/

namespace Sys2Proof

/-- Four operand bytes and at most 251 more, or fewer than four bytes. -/
def SinglePayload.wf : SinglePayload → Bool
  | .operands _ extra => extra.length ≤ 251
  | .short bytes => bytes.length < 4

/-- Eight operand bytes and at most 247 more, or fewer than eight bytes. -/
def PairPayload.wf : PairPayload → Bool
  | .operands _ _ extra => extra.length ≤ 247
  | .short bytes => bytes.length < 8

/-- The byte is one of the four selectors (00_scope R7). -/
def isSelector (source : Byte) : Bool :=
  source == Config.srcViba || source == Config.srcVibb || source == Config.srcBuzz || source == Config.srcComb

/-- Well-formedness of an operation. -/
def Instr.wf : Instr → Bool
  | .viba p => p.wf
  | .vibb p => p.wf
  | .buzz p => p.wf
  | .comb p => p.wf
  | .ign source payload => !isSelector source && payload.length ≤ 255
  | .drop marker _ _ => marker != Config.startMarker
  | .tick => true

end Sys2Proof
end

