-- ==== Sys2Proof/Decode.lean ====
section
/-! DEFINITION. From bytes to operations and back (30_encoding). The decoder is total: on any bytes it
answers an operation and the rest of the stream, or says by name which bytes are still missing. -/

namespace Sys2Proof

/-- `le16(lo, hi) = lo + 256 * hi` (20_memory R64, 00_scope R12): the byte at the lower offset is the
less significant. -/
def le16 (lo hi : Byte) : Millis := hi ++ lo

/-- The less significant byte of a duration, the one sent first. -/
def lowByte (d : Millis) : Byte := d.setWidth 8

/-- The more significant byte of a duration, the one sent second. -/
def highByte (d : Millis) : Byte := (d >>> 8).setWidth 8

/-- Operand assembly of a field group from its four bytes in payload order (30_encoding R89). -/
def fieldGroup (amp freq lo hi : Byte) : FieldGroup := { amp := amp, freq := freq, dur := le16 lo hi }

/-- The four bytes of a field group in payload order. -/
def FieldGroup.bytes (g : FieldGroup) : List Byte := [g.amp, g.freq, lowByte g.dur, highByte g.dur]

/-- The payload of a one-channel command: `need = 4` (30_encoding R87, R88). -/
def singlePayload : List Byte → SinglePayload
  | a :: f :: lo :: hi :: extra => .operands (fieldGroup a f lo hi) extra
  | bytes => .short bytes

/-- The payload of the combined command: `need = 8` (30_encoding R87, R88). -/
def pairPayload : List Byte → PairPayload
  | a :: f :: lo :: hi :: a' :: f' :: lo' :: hi' :: extra =>
    .operands (fieldGroup a f lo hi) (fieldGroup a' f' lo' hi') extra
  | bytes => .short bytes

/-- Dispatch of an accepted frame on `source` (30_encoding R86, 40_frame_commands R105). -/
def decodeFrame (source : Byte) (payload : List Byte) : Instr :=
  if source = Config.srcViba then .viba (singlePayload payload)
  else if source = Config.srcVibb then .vibb (singlePayload payload)
  else if source = Config.srcBuzz then .buzz (singlePayload payload)
  else if source = Config.srcComb then .comb (pairPayload payload)
  else .ign source payload

/-- What the decoder makes of a sequence of bytes. There is no illegal byte pattern (30_encoding R90):
the two negative answers say that the stream ends inside a frame, where the block waits (60_exceptions R165). -/
inductive Decoded where
  /-- An operation, and the bytes after it. -/
  | instr (i : Instr) (rest : List Byte)
  /-- Fewer than three bytes: the header is incomplete. -/
  | headerIncomplete
  /-- The header is accepted and fewer than `length` bytes follow it. -/
  | payloadIncomplete
  deriving DecidableEq, Repr

/-- Decode the frame at the front of a stream (30_encoding R80, R91). -/
def decode : List Byte → Decoded
  | m :: source :: len :: rest =>
    if m ≠ Config.startMarker then .instr (.drop m source len) rest
    else if rest.length < len.toNat then .payloadIncomplete
    else .instr (decodeFrame source (rest.take len.toNat)) (rest.drop len.toNat)
  | _ => .headerIncomplete

/-- The bytes of a one-channel payload. -/
def SinglePayload.bytes : SinglePayload → List Byte
  | .operands g extra => g.bytes ++ extra
  | .short bytes => bytes

/-- The bytes of the combined payload. -/
def PairPayload.bytes : PairPayload → List Byte
  | .operands a b extra => a.bytes ++ b.bytes ++ extra
  | .short bytes => bytes

/-- An accepted frame on the wire: `[0xAA][source][length][payload]` (20_memory R62, 30_encoding R80). -/
def frame (source : Byte) (payload : List Byte) : List Byte :=
  Config.startMarker :: source :: BitVec.ofNat 8 payload.length :: payload

/-- The bytes of an operation (30_encoding R86, R92). `TICK` has none: it is an event. -/
def encode : Instr → List Byte
  | .viba p => frame Config.srcViba p.bytes
  | .vibb p => frame Config.srcVibb p.bytes
  | .buzz p => frame Config.srcBuzz p.bytes
  | .comb p => frame Config.srcComb p.bytes
  | .ign source payload => frame source payload
  | .drop marker second third => [marker, second, third]
  | .tick => []

/-- The kinds of header (30_encoding R86). -/
inductive HeaderKind where
  | viba
  | vibb
  | buzz
  | comb
  | ign
  | drop
  deriving DecidableEq, Repr

/-- A row of the opcode table: `hdr24` belongs to `kind` when its masked bits are those of `pattern`. -/
structure HeaderRow where
  mask : BitVec 24
  pattern : BitVec 24
  kind : HeaderKind
  deriving DecidableEq, Repr

/-- The six header rows in the order they are tried (30_encoding R86; spec/opcode_table.json). -/
def headerRows : List HeaderRow :=
  [ { mask := 0xFFFF00, pattern := 0xAA7600, kind := .viba },
    { mask := 0xFFFF00, pattern := 0xAA7700, kind := .vibb },
    { mask := 0xFFFF00, pattern := 0xAA6200, kind := .buzz },
    { mask := 0xFFFF00, pattern := 0xAA6300, kind := .comb },
    { mask := 0xFF0000, pattern := 0xAA0000, kind := .ign },
    { mask := 0x000000, pattern := 0x000000, kind := .drop } ]

/-- `hdr24 = byte0 ++ byte1 ++ byte2` (30_encoding R85). -/
def hdr24 (b0 b1 b2 : Byte) : BitVec 24 := b0 ++ b1 ++ b2

/-- The kind the table's decision list gives a header word: that of the first row that matches. -/
def headerKind (h : BitVec 24) : Option HeaderKind :=
  (headerRows.find? fun r => h &&& r.mask == r.pattern).map HeaderRow.kind

/-- The kind of an operation's header; a tick has none. -/
def Instr.headerKind : Instr → Option HeaderKind
  | .viba _ => some .viba
  | .vibb _ => some .vibb
  | .buzz _ => some .buzz
  | .comb _ => some .comb
  | .ign _ _ => some .ign
  | .drop _ _ _ => some .drop
  | .tick => none

/-- Byte `i` of a payload in the numbering of the opcode table: bits `24 + 8 i` and up, a bit at or
above `nbits` being 0. -/
def tablePayloadByte (nbits w i : Nat) : Byte := BitVec.ofNat 8 ((w % 2 ^ nbits) >>> (24 + 8 * i))

/-- The stream bytes of an opcode-table word: `hdr24` is one 24-bit number with stream byte 0 in bits
23:16 (30_encoding R85), the payload follows it, as many bytes as `length` says (log 11); a header that is
not accepted has no payload (40_frame_commands R114). -/
def tableBytes (nbits w : Nat) : List Byte :=
  let v := w % 2 ^ nbits
  let first : Byte := BitVec.ofNat 8 (v >>> 16)
  let len : Byte := BitVec.ofNat 8 v
  first :: BitVec.ofNat 8 (v >>> 8) :: len ::
    (List.range (if first = Config.startMarker then len.toNat else 0)).map (tablePayloadByte nbits w)

/-- The operation the decoder reads from an opcode-table word. The row without bits is the event `TICK`
(30_encoding R86; log 11). -/
def decodeTableWord (nbits w : Nat) : Option Instr :=
  if nbits = 0 then some .tick
  else
    match decode (tableBytes nbits w) with
    | .instr i _ => some i
    | .headerIncomplete => none
    | .payloadIncomplete => none

end Sys2Proof
end

