-- ==== Sys2Proof/Machine/State.lean ====
section
/-! DEFINITION. The state of the block (10_state R20), the inputs it is given (10_state R20, last line),
its two empty lists of reasons to stop, and its value after reset (10_state R43). -/

namespace Sys2Proof.Machine

/-- A Channel record (10_state R22 to R26). -/
structure Channel where
  amplitude : Byte
  /-- The full period in microseconds (R23). -/
  period : Period
  /-- The absolute time after which the channel turns off (R24). -/
  deadline : Nat
  active : Bool
  /-- `start_time`: written at activation, read by no rule (R26). -/
  startTime : Nat
  deriving DecidableEq, Repr

/-- The Trigger record (10_state R28, R29). -/
structure Trigger where
  deadline : Nat
  active : Bool
  deriving DecidableEq, Repr

/-- `dec.phase` (10_state R30). -/
inductive Phase where
  /-- `HDR`: collecting the three header bytes. -/
  | hdr
  /-- `PAYLOAD`: collecting `dec.hdr[2]` payload bytes. -/
  | payload
  deriving DecidableEq, Repr

/-- The Decoder's own state (10_state R30 to R32). -/
structure Decoder where
  phase : Phase
  /-- Bytes already taken in the current phase. -/
  cnt : Byte
  hdr : Vector Byte 3
  pl : Vector Byte 8
  deriving DecidableEq, Repr

/-- The output registers of an alternating channel (10_state R36, R37). -/
structure AltOutput where
  level : Level
  /-- `true` is the 1 of R37: the quotient is odd. -/
  dir : Bool
  deriving DecidableEq, Repr

/-- One byte of the receive stream that the Decoder has not taken yet (10_state R41, 20_memory R61). -/
structure Delivery where
  /-- The time of its `RxByte` step (a time already past means: now; log 6). -/
  time : Nat
  byte : Byte
  /-- Whether a tick of the same microsecond goes before it: both orders are runs (20_memory R72; log 5). -/
  tickFirst : Bool
  deriving DecidableEq, Repr

/-- The whole state of the block, and its inputs as plain data. -/
structure State where
  /-- `ch[VA]`. -/
  chVA : Channel
  /-- `ch[VB]`. -/
  chVB : Channel
  /-- `ch[BZ]`. -/
  chBZ : Channel
  trig : Trigger
  dec : Decoder
  /-- `out[VA].level`, `out[VA].dir`. -/
  outVA : AltOutput
  /-- `out[BZ].level`, `out[BZ].dir`. -/
  outBZ : AltOutput
  /-- `out[VB].level`; Vibration-B has no direction output (10_state R38). -/
  outVB : Level
  /-- `TRIG` (10_state R39). -/
  trigLine : Bool
  /-- Input `NOW`: the timestamp of the step in progress (10_state R34). -/
  now : Nat
  /-- Input: the time of the timer's next tick (10_state R35). -/
  nextTick : Nat
  /-- Input: the receive stream, oldest byte first (10_state R41). -/
  rx : List Delivery
  deriving DecidableEq, Repr

/-- Reasons to stop with a fault: none. The block raises nothing (60_exceptions R160): no step of either
agent stops it, whatever the bytes and the state. Safe: there is no fault a proof could assume away. -/
inductive Fault
  deriving DecidableEq, Repr

/-- Reasons to stop without a meaning. -/
inductive Refusal where
  /-- Raised by an arm of `exec` whose operation has no meaning yet. No arm is left in that condition, so
  nothing raises it. Safe: it would stop where the hardware goes on. -/
  | notModelled (mnemonic : String)
  deriving DecidableEq, Repr

/-- A Channel record after reset (10_state R43): inert. -/
def Channel.reset : Channel := { amplitude := 0, period := 0, deadline := 0, active := false, startTime := 0 }

/-- The Decoder after reset (10_state R43): the first byte is byte 0 of a header. -/
def Decoder.reset : Decoder :=
  { phase := .hdr, cnt := 0, hdr := #v[0, 0, 0], pl := #v[0, 0, 0, 0, 0, 0, 0, 0] }

/-- The block after reset, the open parameters `T_RESET` and `TICK_T0` (00_scope R8) given: every element
at the value of 10_state R43, every undelivered byte discarded (70_reset_and_hazards R191, R192). -/
def State.resetAt (tReset tickT0 : Nat) : State :=
  { chVA := Channel.reset
    chVB := Channel.reset
    chBZ := Channel.reset
    trig := { deadline := 0, active := false }
    dec := Decoder.reset
    outVA := { level := 0, dir := false }
    outBZ := { level := 0, dir := false }
    outVB := 0
    trigLine := false
    now := tReset
    nextTick := tickT0
    rx := [] }

/-- The block after reset, the open parameters at the values of `Config` (log 2). -/
def State.reset : State := State.resetAt Config.tReset Config.tickT0

end Sys2Proof.Machine
end

