-- ==== Sys2Proof/Machine/Operands.lean ====
section
/-! DEFINITION. The quantities computed from operands: validity (40_frame_commands R108), what an
activation stores (R106), what an emission writes (41_pulse_scheduler R134 to R136, R141). -/

namespace Sys2Proof.Machine

/-- The operand part of `Valid` for one field group (40_frame_commands R108). -/
def groupValid (g : FieldGroup) : Bool := g.freq != 0 && g.dur != 0

/-- `1_000_000 div freq`, the remainder discarded (40_frame_commands R106). -/
def periodOf (freq : Byte) : Period := BitVec.ofNat 20 (Config.usPerSecond / freq.toNat)

/-- `T + 1000 * dur` (40_frame_commands R106). -/
def deadlineOf (t : Nat) (dur : Millis) : Nat := t + Config.usPerMs * dur.toNat

/-- The five fields `Activate` writes (40_frame_commands R106); no old field is read. -/
def activatedChannel (g : FieldGroup) (t : Nat) : Channel :=
  { amplitude := g.amp, period := periodOf g.freq, deadline := deadlineOf t g.dur, active := true, startTime := t }

/-- `4 * amplitude` (41_pulse_scheduler R134). -/
def levelOf (amplitude : Byte) : Level := BitVec.ofNat 10 (Config.ampScale * amplitude.toNat)

/-- `period div 2` (41_pulse_scheduler R136). -/
def halfPeriod (period : Period) : Nat := period.toNat / 2

/-- `elapsed div half` under either reading of the arithmetic (41_pulse_scheduler R136, R141): the
division is by a positive number, so Lean's integer `/` and `%` are `div` and `mod` of 00_scope R10. -/
def quotient (arith : ElapsedArith) (now deadline : Nat) (half : Nat) : Int :=
  match arith with
  | .floorInt => ((now : Int) - (deadline : Int)) / (half : Int)
  | .wrapU64 => (((now : Int) - (deadline : Int)) % 2 ^ 64) / (half : Int)

/-- `Direction` (41_pulse_scheduler R136): the quotient is odd. With half-period 0, which no reachable
state shows, the value is free (R148; log 8). -/
def direction (arith : ElapsedArith) (c : ChannelId) (now deadline : Nat) (period : Period) : Bool :=
  if halfPeriod period = 0 then Config.directionAtZeroHalf c now deadline period
  else quotient arith now deadline (halfPeriod period) % 2 == 1

end Sys2Proof.Machine
end

