-- ==== Sys2Proof/Machine/Flags.lean ====
section
/-! DEFINITION. The block's flags, the `active` bits (10_state R25, R29; 00_scope R9): when a deadline has
passed, and what one tick makes of each flag together with the output it governs. -/

namespace Sys2Proof.Machine

/-- `now > deadline`, strict (41_pulse_scheduler R133, R138, R139). -/
def pastDeadline (now deadline : Nat) : Bool := decide (deadline < now)

/-- Turn-off of a record: `active` is cleared and nothing else (41_pulse_scheduler R133, 10_state R27 g). -/
def turnedOff (r : Channel) : Channel := { r with active := false }

/-- One tick on an alternating channel's record (41_pulse_scheduler R133, R134, R137). -/
def tickedChannel (now : Nat) (r : Channel) : Channel :=
  if r.active && pastDeadline now r.deadline then turnedOff r else r

/-- One tick on an alternating channel's outputs: turn-off (R133), emission (R134) or nothing (R137). -/
def tickedOutput (arith : ElapsedArith) (c : ChannelId) (now : Nat) (r : Channel) (o : AltOutput) : AltOutput :=
  if r.active && pastDeadline now r.deadline then { o with level := 0 }
  else if r.active then { level := levelOf r.amplitude, dir := direction arith c now r.deadline r.period }
  else o

/-- One tick on Vibration-B's level: only the turn-off check (41_pulse_scheduler R138). -/
def tickedLevelVB (now : Nat) (r : Channel) (level : Level) : Level :=
  if r.active && pastDeadline now r.deadline then 0 else level

/-- One tick on the Trigger record: the deadline alone is tested (41_pulse_scheduler R139). -/
def tickedTrigger (now : Nat) (t : Trigger) : Trigger :=
  if pastDeadline now t.deadline then { t with active := false } else t

/-- One tick on the trigger line (41_pulse_scheduler R139). -/
def tickedLine (now : Nat) (t : Trigger) (line : Bool) : Bool :=
  if pastDeadline now t.deadline then false else line

end Sys2Proof.Machine
end

