-- ==== Sys2Proof/Machine/Ops.lean ====
section
/-! DEFINITION. The named operations over the state: access to a channel's record, activation and the
trigger (40_frame_commands R106, R107), commit (R105), one scheduler pass (41_pulse_scheduler R130), the
entry of the tick interrupt (60_exceptions R168, R171), delivery of bytes, reset. -/

namespace Sys2Proof.Machine

/-- `ch[c]` (00_scope R11). -/
def State.ch (s : State) : ChannelId → Channel
  | .VA => s.chVA
  | .VB => s.chVB
  | .BZ => s.chBZ

/-- `ch[c] <- r`. -/
def State.setCh (s : State) (c : ChannelId) (r : Channel) : State :=
  match c with
  | .VA => { s with chVA := r }
  | .VB => { s with chVB := r }
  | .BZ => { s with chBZ := r }

/-- `out[c].level` (00_scope R11). -/
def State.level (s : State) : ChannelId → Level
  | .VA => s.outVA.level
  | .VB => s.outVB
  | .BZ => s.outBZ.level

/-- `Activate(c, amp, freq, dur, NOW)` (40_frame_commands R106). -/
def State.activate (s : State) (c : ChannelId) (g : FieldGroup) : State :=
  s.setCh c (activatedChannel g s.now)

/-- `AssertTrigger(NOW)` (40_frame_commands R107). -/
def State.assertTrigger (s : State) : State :=
  { s with trig := { deadline := s.now + Config.trigWidthUs, active := true }, trigLine := true }

/-- The Decoder between frames: phase `HDR`, count 0, the registers as they are (40_frame_commands R100). -/
def Decoder.endFrame (d : Decoder) : Decoder := { d with phase := .hdr, cnt := 0 }

/-- The Decoder returns to its header phase, as it does in the step that ends a frame (log 18). -/
def State.endFrame (s : State) : State := { s with dec := s.dec.endFrame }

/-- The activations of a list of targets, in order; the targets of one frame are different records, so
the order does not matter (40_frame_commands R105). -/
def State.activateAll (s : State) : List (ChannelId × FieldGroup) → State
  | [] => s
  | (c, g) :: rest => (s.activate c g).activateAll rest

/-- `Commit(NOW)` (40_frame_commands R105) for the targets whose operands the payload covers: all of them
are activated or, if one operand is invalid, none (R108); the trigger is asserted in every case. The step
that commits also ends the frame (R100). All of it is one atomic step (20_memory R69). -/
def State.commit (s : State) (targets : List (ChannelId × FieldGroup)) : State :=
  ((if targets.all fun t => groupValid t.2 then s.activateAll targets else s).assertTrigger).endFrame

/-- One scheduler pass at the instant `NOW` (41_pulse_scheduler R130): every right-hand side reads the
state before the step. -/
def State.tickPass (arith : ElapsedArith) (s : State) : State :=
  { s with
    chVA := tickedChannel s.now s.chVA
    chVB := tickedChannel s.now s.chVB
    chBZ := tickedChannel s.now s.chBZ
    trig := tickedTrigger s.now s.trig
    outVA := tickedOutput arith .VA s.now s.chVA s.outVA
    outBZ := tickedOutput arith .BZ s.now s.chBZ s.outBZ
    outVB := tickedLevelVB s.now s.chVB s.outVB
    trigLine := tickedLine s.now s.trig s.trigLine }

/-- Entry of the block's one interrupt, the tick (60_exceptions R168, R171): nothing is saved, no mode,
mask or vector exists; `NOW` is the time the timer was due and the timer is due again one period later.
There is no return operation: the tick simply ends (R174). -/
def State.enterTick (s : State) : State :=
  { s with now := s.nextTick, nextTick := s.nextTick + Config.tickPeriodUs }

/-- The host sends further bytes (60_exceptions R179). -/
def State.deliver (s : State) (ds : List Delivery) : State := { s with rx := s.rx ++ ds }

/-- Reset at the instant `NOW` of a running block, the first tick afterwards at `tickT0`
(70_reset_and_hazards R190 to R192). It is no step (00_scope R13; log 16). -/
def State.applyReset (s : State) (tickT0 : Nat) : State := State.resetAt s.now tickT0

end Sys2Proof.Machine
end

