-- ==== Sys2Proof/Machine/Frames.lean ====
section
/-! DEFINITION. The meanings of the six frame kinds (40_frame_commands R109 to R114), each at the step
that consumes the frame's last byte, with the header and payload registers already complete. -/

namespace Sys2Proof.Machine

/-- The target list of a one-channel command: empty when the payload is short (40_frame_commands R105, R108). -/
def singleTargets (c : ChannelId) : SinglePayload → List (ChannelId × FieldGroup)
  | .operands g _ => [(c, g)]
  | .short _ => []

/-- The target list of the combined command: empty when the payload is short (R105, R108). -/
def pairTargets : PairPayload → List (ChannelId × FieldGroup)
  | .operands a b _ => [(.VA, a), (.BZ, b)]
  | .short _ => []

/-- `VIBA` (R109). -/
def execViba (p : SinglePayload) (s : State) : Host.Outcome State Fault Refusal :=
  .next (s.commit (singleTargets .VA p))

/-- `VIBB` (R110): its record alone, Vibration-A's period is not touched. -/
def execVibb (p : SinglePayload) (s : State) : Host.Outcome State Fault Refusal :=
  .next (s.commit (singleTargets .VB p))

/-- `BUZZ` (R111). -/
def execBuzz (p : SinglePayload) (s : State) : Host.Outcome State Fault Refusal :=
  .next (s.commit (singleTargets .BZ p))

/-- `COMB` (R112): both channels or neither, one trigger pulse. -/
def execComb (p : PairPayload) (s : State) : Host.Outcome State Fault Refusal :=
  .next (s.commit (pairTargets p))

/-- `IGN` (R113): the payload is not read, the trigger is asserted. -/
def execIgn (s : State) : Host.Outcome State Fault Refusal :=
  .next (s.commit [])

/-- `DROP` (R114): the three bytes are forgotten, nothing outside `dec` changes. -/
def execDrop (s : State) : Host.Outcome State Fault Refusal :=
  .next s.endFrame

end Sys2Proof.Machine
end

