-- ==== Sys2Proof/Machine/Scheduler.lean ====
section
/-! DEFINITION. The meaning of the scheduler's one operation (41_pulse_scheduler R130). -/

namespace Sys2Proof.Machine

/-- `TICK`, a total function of the state and `NOW` (R130), the direction under `ELAPSED_ARITH`. -/
def execTick (s : State) : Host.Outcome State Fault Refusal :=
  .next (s.tickPass Config.elapsedArith)

end Sys2Proof.Machine
end

