-- ==== Sys2Proof/Machine/Dispatch.lean ====
section
/-! DEFINITION. One arm per operation. -/

namespace Sys2Proof.Machine

def exec (i : Instr) (s : State) : Host.Outcome State Fault Refusal :=
  match i with
  | .viba p => Sys2Proof.Machine.execViba p s
  | .vibb p => Sys2Proof.Machine.execVibb p s
  | .buzz p => Sys2Proof.Machine.execBuzz p s
  | .comb p => Sys2Proof.Machine.execComb p s
  | .ign _ _ => Sys2Proof.Machine.execIgn s
  | .drop _ _ _ => Sys2Proof.Machine.execDrop s
  | .tick => Sys2Proof.Machine.execTick s

end Sys2Proof.Machine
end

