-- ==== Sys2Proof/Machine/Receive.lean ====
section
/-! DEFINITION. The Decoder's byte step (40_frame_commands R100 to R103, R118), which of the two agents
steps next (20_memory R72, 60_exceptions R168, R170), and how an operation is placed so that the next step
runs it. -/

namespace Sys2Proof.Machine

/-- A header byte goes to the register its count selects; the third is `length` (40_frame_commands R100;
a count above 2, which no reachable state shows, is taken by the same branch, log 9). -/
def Decoder.storeHeader (d : Decoder) (b : Byte) : Decoder :=
  { d with hdr := if d.cnt = 0 then d.hdr.set 0 b else if d.cnt = 1 then d.hdr.set 1 b else d.hdr.set 2 b }

/-- The first eight payload bytes are stored, later ones only counted (40_frame_commands R103). -/
def Decoder.storePayload (d : Decoder) (b : Byte) : Decoder :=
  { d with pl := d.pl.setIfInBounds d.cnt.toNat b }

/-- The payload as the registers hold it: the bytes that `length` covers, at most eight (10_state R32). -/
def Decoder.payload (d : Decoder) : List Byte := d.pl.toList.take d.hdr[2].toNat

/-- What one byte does to the Decoder. -/
inductive ByteEffect where
  /-- The frame is not complete: the Decoder's new state. -/
  | more (d : Decoder)
  /-- The frame is complete: the Decoder with its registers filled, and the operation they hold. -/
  | complete (d : Decoder) (i : Instr)
  deriving DecidableEq, Repr

/-- `RxByte(b)` on the Decoder (40_frame_commands R100). A completed frame is handed to its meaning, which
also returns the Decoder to `HDR` with count 0. -/
def Decoder.rxByte (d : Decoder) (b : Byte) : ByteEffect :=
  match d.phase with
  | .hdr =>
    let d1 := d.storeHeader b
    if d.cnt.toNat < 2 then .more { d1 with cnt := d.cnt + 1 }
    else if d1.hdr[0] ≠ Config.startMarker then .complete d1 (.drop d1.hdr[0] d1.hdr[1] d1.hdr[2])
    else if b = 0 then .complete d1 (decodeFrame d1.hdr[1] [])
    else .more { d1 with phase := .payload, cnt := 0 }
  | .payload =>
    let d1 := d.storePayload b
    if d.cnt.toNat + 1 < d.hdr[2].toNat then .more { d1 with cnt := d.cnt + 1 }
    else .complete d1 (decodeFrame d1.hdr[1] d1.payload)

/-- The Decoder after a byte, the end of a completed frame included. -/
def Decoder.afterByte (d : Decoder) (b : Byte) : Decoder :=
  match d.rxByte b with
  | .more d' => d'
  | .complete d' _ => d'.endFrame

/-- The next step of the block. -/
inductive Event where
  /-- A tick of the Scheduler. -/
  | tick
  /-- A byte for the Decoder at time `t`, and what the stream holds after it. -/
  | byte (t : Nat) (b : Byte) (rest : List Delivery)
  deriving DecidableEq, Repr

/-- Which step comes next (20_memory R72): the byte whose time is before the next tick, else the tick; at
the same microsecond the delivery says which (60_exceptions R170). With no byte pending the Decoder waits
and ticks go on (R165). A byte whose time is past is taken now (log 6). -/
def State.nextEvent (s : State) : Event :=
  match s.rx with
  | [] => .tick
  | d :: rest =>
    let t := max s.now d.time
    if t < s.nextTick ∨ (t = s.nextTick ∧ d.tickFirst = false) then .byte t d.byte rest else .tick

/-- The stream's next byte leaves it and `NOW` is its time (20_memory R61: reading is destructive). -/
def State.takeByte (s : State) (t : Nat) (rest : List Delivery) : State := { s with now := t, rx := rest }

/-- The state in which the next step takes the last of the given bytes, the Decoder having taken the
others from a frame boundary (log 13). -/
def State.placeFrame (s : State) (bytes : List Byte) : State :=
  { s with
    dec := bytes.dropLast.foldl Decoder.afterByte s.dec.endFrame
    rx := { time := s.now, byte := bytes.getLastD 0, tickFirst := false } :: s.rx }

/-- The state in which the next step is a tick: no byte is pending (log 13). -/
def State.placeTick (s : State) : State := { s with rx := [] }

/-- An operation with no more of its payload than the registers hold: the payload bytes with index 8 and
above are counted and discarded (40_frame_commands R103; log 10). -/
def retained : Instr → Instr
  | .viba (.operands g extra) => .viba (.operands g (extra.take 4))
  | .viba (.short bytes) => .viba (.short bytes)
  | .vibb (.operands g extra) => .vibb (.operands g (extra.take 4))
  | .vibb (.short bytes) => .vibb (.short bytes)
  | .buzz (.operands g extra) => .buzz (.operands g (extra.take 4))
  | .buzz (.short bytes) => .buzz (.short bytes)
  | .comb (.operands a b _) => .comb (.operands a b [])
  | .comb (.short bytes) => .comb (.short bytes)
  | .ign source payload => .ign source (payload.take 8)
  | .drop marker second third => .drop marker second third
  | .tick => .tick

end Sys2Proof.Machine
end

