-- ==== Sys2Proof/Machine/Step.lean ====
section
/-! DEFINITION. One step of the block (00_scope R13): a `Tick` of the Scheduler or an `RxByte` of the
Decoder. -/

namespace Sys2Proof.Machine

/-- One atomic step. A tick runs at the time the timer is due. A byte is stored and counted, and the byte
that completes a frame runs the frame's operation in the same step. -/
def step (s : State) : Host.Outcome State Fault Refusal :=
  match s.nextEvent with
  | .tick => exec .tick s.enterTick
  | .byte t b rest =>
    match s.dec.rxByte b with
    | .more d => .next { s.takeByte t rest with dec := d }
    | .complete d i => exec i { s.takeByte t rest with dec := d }

/-- The state in which the next step runs the operation of an opcode-table word (log 13). -/
def State.withFetchWord (s : State) (nbits w : Nat) : State :=
  if nbits = 0 then s.placeTick else s.placeFrame (tableBytes nbits w)

end Sys2Proof.Machine
end

