-- ==== Sys2Proof/Machine/Conditions.lean ====
section
/-! DEFINITION. The error conditions as labels (60_exceptions R160 to R165). Nothing in the machine reads
them and no state holds them (R167; log 15). -/

namespace Sys2Proof.Machine

/-- The labels of 60_exceptions R160 that an operation can carry. -/
inductive Condition where
  | framing
  | unknownSource
  | shortPayload
  | invalidParam
  deriving DecidableEq, Repr

/-- The condition of a one-channel payload (R163, R164). -/
def singleCondition : SinglePayload → Option Condition
  | .short _ => some .shortPayload
  | .operands g _ => if groupValid g then none else some .invalidParam

/-- The condition of a combined payload (R163, R164). -/
def pairCondition : PairPayload → Option Condition
  | .short _ => some .shortPayload
  | .operands a b _ => if groupValid a && groupValid b then none else some .invalidParam

/-- The condition an operation raises, silently (R160 to R164). -/
def conditionOf : Instr → Option Condition
  | .viba p => singleCondition p
  | .vibb p => singleCondition p
  | .buzz p => singleCondition p
  | .comb p => pairCondition p
  | .ign _ _ => some .unknownSource
  | .drop _ _ _ => some .framing
  | .tick => none

/-- `STARVATION` (R165): the stream has no byte, the Decoder waits. -/
def State.starved (s : State) : Bool := s.rx.isEmpty

end Sys2Proof.Machine
end

