-- ==== Sys2Proof/Safety.lean ====
section
/-! DEFINITION. The terms in which claims about runs are stated: the invariant of the reachable states
(10_state R27, R29, R30, R36), reachability (00_scope R13), what an observer sees (10_state R40), the part
of the state that can still be seen (10_state R43), and the effects of single operations spelled out with
the spec's own numbers. -/

namespace Sys2Proof.Machine

/-- What holds of a Channel record at time `now` in every reachable state (10_state R27 items a and f). -/
structure Channel.Inv (r : Channel) (now : Nat) : Prop where
  /-- R27 a: an active channel has a period of 3921 to 1_000_000, so its half-period is not 0. -/
  period : r.active = true → 3921 ≤ r.period.toNat ∧ r.period.toNat ≤ 1000000
  /-- R27 f: never activated, or the deadline is a whole number of milliseconds after the activation. -/
  history : (r.amplitude = 0 ∧ r.period = 0 ∧ r.deadline = 0 ∧ r.startTime = 0) ∨
    ∃ d, 1 ≤ d ∧ d ≤ 65535 ∧ r.deadline = r.startTime + 1000 * d
  /-- The activation lies in the past (41_pulse_scheduler R142: `now >= T`). -/
  started : r.startTime ≤ now

/-- What holds of the Decoder in every reachable state (10_state R30): the count never rests at the value
that completes its phase, and only an accepted header has a payload. -/
structure Decoder.Inv (d : Decoder) : Prop where
  header : d.phase = .hdr → d.cnt.toNat ≤ 2
  payload : d.phase = .payload → d.cnt.toNat < d.hdr[2].toNat ∧ d.hdr[0] = 0xAA

/-- The invariant of the reachable states. -/
structure State.Inv (s : State) : Prop where
  va : s.chVA.Inv s.now
  vb : s.chVB.Inv s.now
  bz : s.chBZ.Inv s.now
  dec : s.dec.Inv
  /-- 10_state R27 d: an idle channel's level is 0. -/
  idleVA : s.chVA.active = false → s.outVA.level = 0
  idleBZ : s.chBZ.active = false → s.outBZ.level = 0
  /-- 10_state R27 e: Vibration-B's level is always 0. -/
  levelVB : s.outVB = 0
  /-- 10_state R36: only multiples of 4 are ever written. -/
  stepVA : s.outVA.level.toNat % 4 = 0
  stepBZ : s.outBZ.level.toNat % 4 = 0
  /-- 10_state R29: the Trigger record's flag mirrors the line. -/
  trig : s.trig.active = s.trigLine
  /-- 60_exceptions R168: the next tick lies ahead, at most one period away. -/
  tickAhead : s.now ≤ s.nextTick ∧ s.nextTick ≤ s.now + 1000

/-- A run of `n` steps, ticks and bytes as they come; it would end at a step that does not go on. -/
def run : Nat → State → Host.Outcome State Fault Refusal
  | 0, s => .next s
  | n + 1, s =>
    match step s with
    | .next t => run n t
    | .fault reason => .fault reason
    | .refused reason => .refused reason

/-- The states a run can reach: reset at any `T_RESET` and `TICK_T0` that 00_scope R8 admits, then any
bytes the host sends and any steps. -/
inductive Reachable : State → Prop where
  | reset {tReset tickT0 : Nat} : tReset < tickT0 → tickT0 ≤ tReset + 1000 → Reachable (State.resetAt tReset tickT0)
  | deliver {s : State} (ds : List Delivery) : Reachable s → Reachable (s.deliver ds)
  | step {s t : State} : Reachable s → step s = .next t → Reachable t

/-- The six output registers (10_state R20, R40). -/
structure Outputs where
  va : AltOutput
  bz : AltOutput
  vb : Level
  trig : Bool
  deriving DecidableEq, Repr

/-- What an observer of the pins sees (10_state R40). -/
def State.outputs (s : State) : Outputs := { va := s.outVA, bz := s.outBZ, vb := s.outVB, trig := s.trigLine }

/-- A record less what no rule reads before it is overwritten: everything while idle (10_state R43), the
ghost `start_time` always (R26). -/
def Channel.visible (r : Channel) : Channel := if r.active then { r with startTime := 0 } else Channel.reset

/-- Vibration-B's record less its amplitude and period too, which no rule reads (10_state R22, R23). -/
def Channel.visibleVB (r : Channel) : Channel :=
  if r.active then { Channel.reset with deadline := r.deadline, active := true } else Channel.reset

/-- The Decoder less the registers whose content is stale (10_state R31, R32). -/
def Decoder.visible (d : Decoder) : Decoder :=
  { d with
    hdr := Vector.ofFn fun i => if d.phase = .payload ∨ i.val < d.cnt.toNat then d.hdr[i] else 0
    pl := Vector.ofFn fun i => if d.phase = .payload ∧ i.val < d.cnt.toNat then d.pl[i] else 0 }

/-- The state less all that 10_state R43 calls unobservable: idle records, ghosts, stale registers,
`trig.active`, and the trigger's deadline while the line is low. -/
def State.visible (s : State) : State :=
  { s with
    chVA := s.chVA.visible
    chVB := s.chVB.visibleVB
    chBZ := s.chBZ.visible
    dec := s.dec.visible
    trig := { deadline := if s.trigLine then s.trig.deadline else 0, active := false } }

/-- The record a valid command leaves (40_frame_commands R106), in the spec's own numbers. -/
structure Activated (r : Channel) (g : FieldGroup) (t : Nat) : Prop where
  amplitude : r.amplitude = g.amp
  period : r.period.toNat = 1000000 / g.freq.toNat
  deadline : r.deadline = t + 1000 * g.dur.toNat
  active : r.active = true
  startTime : r.startTime = t

/-- The state an accepted frame leaves when it changes no channel (40_frame_commands R107, R100): the
trigger is asserted, the Decoder is at a frame boundary, all else is as before. -/
def State.accepted (s : State) : State :=
  { s with
    trig := { deadline := s.now + 5000, active := true }
    trigLine := true
    dec := { s.dec with phase := .hdr, cnt := 0 } }

/-- One tick at `now` on an alternating channel, from its record and outputs before to those after
(41_pulse_scheduler R130, R133, R134, R137). The direction is that of `floor_int` (D7; log 7), stated where
the half-period is not 0; where it is, it is a free value (log 8). -/
structure AlternatingTick (now : Nat) (r : Channel) (o : AltOutput) (r' : Channel) (o' : AltOutput) : Prop where
  turnOff : r.active = true → r.deadline < now → r' = { r with active := false } ∧ o' = { o with level := 0 }
  emitLevel : r.active = true → now ≤ r.deadline → r' = r ∧ o'.level.toNat = 4 * r.amplitude.toNat
  emitDir : r.active = true → now ≤ r.deadline → 2 ≤ r.period.toNat →
    (o'.dir = true ↔ ((now : Int) - r.deadline) / ((r.period.toNat / 2 : Nat) : Int) % 2 = 1)
  idle : r.active = false → r' = r ∧ o' = o

/-- Vibration-A and the Buzzer exchanged in every element (41_pulse_scheduler R132). -/
def State.swapped (s : State) : State := { s with chVA := s.chBZ, chBZ := s.chVA, outVA := s.outBZ, outBZ := s.outVA }

/-- The ten bytes that realign the Decoder after at least 255 zeros (70_reset_and_hazards R195). -/
def recoverySequence : List Byte := [0xAA, 0xAA, 0x01, 0x00, 0x00, 0xAA, 0x00, 0x02, 0x00, 0x00]

/-- The operation is an accepted frame: its start marker matched (00_scope R14). -/
def acceptedFrame : Instr → Bool
  | .viba _ => true
  | .vibb _ => true
  | .buzz _ => true
  | .comb _ => true
  | .ign _ _ => true
  | .drop _ _ _ => false
  | .tick => false

end Sys2Proof.Machine
end

