-- ==== Sys2Proof/Certificates/Slice0/Obligations.lean ====
section
/-! DEFINITION. The statements for the provers. Numbers are the spec's own; each docstring names the rule. -/

open Sys2Proof Sys2Proof.Machine

/-! ## Encoding -/

/-- 30_encoding R80 to R92: decoding the bytes of a well-formed frame, whatever follows them, gives the
frame back with every operand and every ignored byte, and leaves exactly what follows. -/
def Obligations.DecodeOfEncodeIsIdentity : Prop :=
  ∀ (i : Instr) (rest : List Byte), i.wf = true → i ≠ .tick → decode (encode i ++ rest) = .instr i rest

/-- 30_encoding R80 to R91, the other direction: what the decoder reads is a well-formed frame whose bytes
are the ones it took, and it never reads a tick. -/
def Obligations.EncodeOfDecodeIsIdentity : Prop :=
  ∀ (bytes rest : List Byte) (i : Instr), decode bytes = .instr i rest →
    i.wf = true ∧ i ≠ .tick ∧ encode i ++ rest = bytes

/-- 30_encoding R90 and R91, 60_exceptions R165: no byte pattern is illegal; the decoder fails to read an
operation only where the bytes end inside the header or inside the announced payload. -/
def Obligations.DecodeFailsOnlyForMissingBytes : Prop :=
  ∀ bytes : List Byte,
    (decode bytes = .headerIncomplete ↔ bytes.length < 3) ∧
    (decode bytes = .payloadIncomplete ↔
      ∃ (source len : Byte) (rest : List Byte), bytes = 0xAA :: source :: len :: rest ∧ rest.length < len.toNat)

/-- 30_encoding R86: the opcode table's decision list gives every header word a kind, and the operation the
decoder reads has the kind of its header word. -/
def Obligations.HeaderTableClassifiesEveryHeader : Prop :=
  (∀ h : BitVec 24, headerKind h ≠ none) ∧
  ∀ (b0 b1 b2 : Byte) (rest tail : List Byte) (i : Instr),
    decode (b0 :: b1 :: b2 :: rest) = .instr i tail → headerKind (hdr24 b0 b1 b2) = i.headerKind

/-- 30_encoding R93, the spec's two encoding examples byte by byte (the selectors' values are PRESUMED by the spec
itself, log 12). -/
def Obligations.SpecExampleFramesDecode : Prop :=
  decode [0xAA, 0x76, 0x04, 0xC8, 0x32, 0x64, 0x00] =
    .instr (.viba (.operands { amp := 200, freq := 50, dur := 100 } [])) [] ∧
  decode [0xAA, 0x63, 0x08, 0x64, 0x14, 0xE8, 0x03, 0x96, 0x1E, 0x2C, 0x01] =
    .instr (.comb (.operands { amp := 100, freq := 20, dur := 1000 } { amp := 150, freq := 30, dur := 300 } [])) []

/-- One header of each of the six kinds, from the map of 30_encoding R86, and the event row. -/
def Obligations.TableWordsOfEachRowDecode : Prop :=
  decodeTableWord 24 0xAA7600 = some (.viba (.short [])) ∧
  decodeTableWord 24 0xAA7704 = some (.vibb (.operands { amp := 0, freq := 0, dur := 0 } [])) ∧
  decodeTableWord 24 0xAA6200 = some (.buzz (.short [])) ∧
  decodeTableWord 24 0xAA6300 = some (.comb (.short [])) ∧
  decodeTableWord 24 0xAA5600 = some (.ign 0x56 []) ∧
  decodeTableWord 24 0x11AA76 = some (.drop 0x11 0xAA 0x76) ∧
  decodeTableWord 0 0 = some .tick

/-- 30_encoding R89: the operands of a field group, at payload offset 0 and, for the Buzzer half of `COMB`, at
offset 4; none is scaled, none is sign-extended. -/
def Obligations.FieldGroupIsAssembledFromItsBytes : Prop :=
  ∀ (a f lo hi a' f' lo' hi' : Byte) (extra : List Byte), ∃ g g' : FieldGroup,
    singlePayload (a :: f :: lo :: hi :: extra) = .operands g extra ∧
    pairPayload (a :: f :: lo :: hi :: a' :: f' :: lo' :: hi' :: extra) = .operands g g' extra ∧
    g.amp = a ∧ g.freq = f ∧ g.dur.toNat = lo.toNat + 256 * hi.toNat ∧
    g'.amp = a' ∧ g'.freq = f' ∧ g'.dur.toNat = lo'.toNat + 256 * hi'.toNat

/-- 20_memory R64: durations are little-endian, with the document's three examples. -/
def Obligations.DurationIsLittleEndian : Prop :=
  (∀ lo hi : Byte, (le16 lo hi).toNat = lo.toNat + 256 * hi.toNat) ∧
  (le16 0x64 0x00).toNat = 100 ∧ (le16 0xE8 0x03).toNat = 1000 ∧ (le16 0x2C 0x01).toNat = 300

/-! ## The Decoder's byte step -/

/-- 40_frame_commands R118 (the summary of R100 to R103), row by row, on the step that takes a byte: the
registers stored, the phase and count, and which operation a completed frame runs. -/
def Obligations.ByteStepFollowsTransitionTable : Prop :=
  ∀ (s : State) (t : Nat) (b : Byte) (rest : List Delivery), s.nextEvent = .byte t b rest →
    (s.dec.phase = .hdr → s.dec.cnt = 0 →
      step s = .next { s with now := t, rx := rest, dec := { s.dec with hdr := s.dec.hdr.set 0 b, cnt := 1 } }) ∧
    (s.dec.phase = .hdr → s.dec.cnt = 1 →
      step s = .next { s with now := t, rx := rest, dec := { s.dec with hdr := s.dec.hdr.set 1 b, cnt := 2 } }) ∧
    (s.dec.phase = .hdr → s.dec.cnt = 2 → s.dec.hdr[0] ≠ 0xAA →
      step s = .next { s with now := t, rx := rest, dec := { s.dec with hdr := s.dec.hdr.set 2 b, cnt := 0 } }) ∧
    (s.dec.phase = .hdr → s.dec.cnt = 2 → s.dec.hdr[0] = 0xAA → b = 0 →
      step s = exec (decodeFrame s.dec.hdr[1] [])
        { s with now := t, rx := rest, dec := { s.dec with hdr := s.dec.hdr.set 2 b } }) ∧
    (s.dec.phase = .hdr → s.dec.cnt = 2 → s.dec.hdr[0] = 0xAA → b ≠ 0 →
      step s = .next { s with
        now := t, rx := rest, dec := { s.dec with hdr := s.dec.hdr.set 2 b, phase := .payload, cnt := 0 } }) ∧
    (s.dec.phase = .payload → s.dec.cnt.toNat + 1 < s.dec.hdr[2].toNat →
      ∃ d : Decoder, step s = .next { s with now := t, rx := rest, dec := d } ∧
        d.phase = .payload ∧ d.cnt.toNat = s.dec.cnt.toNat + 1 ∧ d.hdr = s.dec.hdr ∧
        d.pl = s.dec.pl.setIfInBounds s.dec.cnt.toNat b) ∧
    (s.dec.phase = .payload → s.dec.cnt.toNat + 1 = s.dec.hdr[2].toNat →
      step s = exec
        (decodeFrame s.dec.hdr[1] ((s.dec.pl.setIfInBounds s.dec.cnt.toNat b).toList.take s.dec.hdr[2].toNat))
        { s with now := t, rx := rest, dec := { s.dec with pl := s.dec.pl.setIfInBounds s.dec.cnt.toNat b } })

/-- 00_scope R13: a step is a tick or a byte. A tick step runs `TICK` at the time the timer was due; a byte
that completes a frame runs the operation the registers hold, with those registers filled, in the same step
(40_frame_commands R100); any other byte only moves the Decoder. -/
def Obligations.StepRunsTheDecodedOperation : Prop :=
  ∀ s : State,
    (s.nextEvent = .tick → step s = exec .tick { s with now := s.nextTick, nextTick := s.nextTick + 1000 }) ∧
    ∀ (t : Nat) (b : Byte) (rest : List Delivery), s.nextEvent = .byte t b rest →
      (∀ (d : Decoder) (i : Instr), s.dec.rxByte b = .complete d i →
        step s = exec i { s with now := t, rx := rest, dec := d }) ∧
      (∀ d : Decoder, s.dec.rxByte b = .more d → step s = .next { s with now := t, rx := rest, dec := d })

/-- 20_memory R61, R62 and R72, 30_encoding R91, 40_frame_commands R100 to R105: from a frame boundary, delivering the bytes of any
well-formed frame one step at a time, all before the next tick, ends in exactly that frame's operation, run at
the time of its last byte; meanwhile nothing outside the Decoder, the clock and the stream has changed. The
header registers hold the header and the payload registers the first eight payload bytes. That a byte whose time
is past is taken now is the model's choice (log 6). -/
def Obligations.DeliveredFrameRunsItsOperation : Prop :=
  ∀ (i : Instr) (s : State) (ds rest : List Delivery), i.wf = true → i ≠ .tick →
    s.dec.phase = .hdr → s.dec.cnt = 0 → s.rx = ds ++ rest → ds.map Delivery.byte = encode i →
    s.now < s.nextTick → (∀ d ∈ ds, d.time < s.nextTick) →
    ∃ d : Decoder,
      run ds.length s =
        exec i { s with now := (ds.map Delivery.time).foldl max s.now, rx := rest, dec := d } ∧
      d.hdr.toList = (encode i).take 3 ∧
      d.pl.toList.take ((encode i).length - 3) = ((encode i).drop 3).take 8

/-- The model's own fetch (log 13): a step from the state in which an opcode-table word was placed runs exactly
the operation the decoder reads from that word, on a state that differs from the given one in the Decoder
alone; the event row runs `TICK`. -/
def Obligations.PlacedTableWordRunsItsOperation : Prop :=
  ∀ (s : State) (nbits w : Nat) (i : Instr), s.now ≤ s.nextTick → decodeTableWord nbits w = some i →
    (nbits = 0 → i = .tick ∧
      step (s.withFetchWord nbits w) =
        exec i { s with rx := [], now := s.nextTick, nextTick := s.nextTick + 1000 }) ∧
    (nbits ≠ 0 → ∃ d : Decoder, step (s.withFetchWord nbits w) = exec i { s with dec := d })

/-- 20_memory R72, 60_exceptions R170 a and R165: the agent with the earlier time steps first; at one microsecond both
orders are runs of the block; with no byte pending the tick is next. That the input says which order (log 5),
and that a byte whose time is past is taken now (log 6), is the model's choice. -/
def Obligations.EarlierAgentStepsFirst : Prop :=
  ∀ (s : State) (d : Delivery) (rest : List Delivery),
    (s.rx = [] → s.nextEvent = .tick) ∧
    (s.rx = d :: rest → max s.now d.time < s.nextTick → s.nextEvent = .byte (max s.now d.time) d.byte rest) ∧
    (s.rx = d :: rest → s.nextTick < max s.now d.time → s.nextEvent = .tick) ∧
    (s.rx = d :: rest → max s.now d.time = s.nextTick → d.tickFirst = true → s.nextEvent = .tick) ∧
    (s.rx = d :: rest → max s.now d.time = s.nextTick → d.tickFirst = false →
      s.nextEvent = .byte s.nextTick d.byte rest)

/-- 60_exceptions R171, 20_memory R75: whatever ticks fall between the bytes and whenever the bytes come, the
Decoder after a run is what the bytes taken so far make of it. -/
def Obligations.DecoderDependsOnBytesAlone : Prop :=
  ∀ (k : Nat) (s t : State), run k s = .next t →
    ∃ n, n ≤ k ∧ t.rx = s.rx.drop n ∧
      t.dec = ((s.rx.take n).map Delivery.byte).foldl Decoder.afterByte s.dec

/-- 70_reset_and_hazards R195 (the spec's own derivation): at least 255 zero bytes and then the ten recovery bytes leave
the Decoder at a frame boundary from every state it can be in. -/
def Obligations.RecoverySequenceRealignsTheDecoder : Prop :=
  ∀ (d : Decoder) (n : Nat), d.Inv → 255 ≤ n →
    ((List.replicate n (0 : Byte) ++ recoverySequence).foldl Decoder.afterByte d).phase = .hdr ∧
    ((List.replicate n (0 : Byte) ++ recoverySequence).foldl Decoder.afterByte d).cnt = 0

/-- 60_exceptions R165: with no byte pending, for any length of time, the Decoder keeps its state, and
every step is a tick, one period after another. -/
def Obligations.StarvedDecoderWaitsWhileTicksGoOn : Prop :=
  ∀ s : State, s.starved = true →
    step s = exec .tick { s with now := s.nextTick, nextTick := s.nextTick + 1000 } ∧
    ∀ k : Nat, ∃ t : State, run k s = .next t ∧ t.dec = s.dec ∧ t.rx = [] ∧
      t.nextTick = s.nextTick + 1000 * k

/-! ## The frames -/

/-- 40_frame_commands R109. A valid `VIBA` (at least four payload bytes, frequency and duration not 0), whatever the
bytes after the fourth, writes the five fields of `ch[VA]` and asserts the trigger; an invalid or short one
only asserts the trigger (decisions D8, D9, D11). Nothing else changes but the Decoder's return to a frame boundary. -/
def Obligations.VibaWritesVibrationA : Prop :=
  ∀ s : State,
    (∀ (g : FieldGroup) (extra : List Byte), g.freq ≠ 0 → g.dur ≠ 0 →
      ∃ r : Channel, Activated r g s.now ∧ exec (.viba (.operands g extra)) s = .next { s.accepted with chVA := r }) ∧
    (∀ (g : FieldGroup) (extra : List Byte), g.freq = 0 ∨ g.dur = 0 →
      exec (.viba (.operands g extra)) s = .next s.accepted) ∧
    (∀ bytes : List Byte, exec (.viba (.short bytes)) s = .next s.accepted)

/-- 40_frame_commands R110: as `VIBA`, on Vibration-B's record alone (decisions D8, D9, D11, D17); no other
channel's period and no output changes. -/
def Obligations.VibbWritesVibrationB : Prop :=
  ∀ s : State,
    (∀ (g : FieldGroup) (extra : List Byte), g.freq ≠ 0 → g.dur ≠ 0 →
      ∃ r : Channel, Activated r g s.now ∧ exec (.vibb (.operands g extra)) s = .next { s.accepted with chVB := r }) ∧
    (∀ (g : FieldGroup) (extra : List Byte), g.freq = 0 ∨ g.dur = 0 →
      exec (.vibb (.operands g extra)) s = .next s.accepted) ∧
    (∀ bytes : List Byte, exec (.vibb (.short bytes)) s = .next s.accepted)

/-- 40_frame_commands R111: as `VIBA`, on the Buzzer's record (decisions D8, D9, D11). -/
def Obligations.BuzzWritesTheBuzzer : Prop :=
  ∀ s : State,
    (∀ (g : FieldGroup) (extra : List Byte), g.freq ≠ 0 → g.dur ≠ 0 →
      ∃ r : Channel, Activated r g s.now ∧ exec (.buzz (.operands g extra)) s = .next { s.accepted with chBZ := r }) ∧
    (∀ (g : FieldGroup) (extra : List Byte), g.freq = 0 ∨ g.dur = 0 →
      exec (.buzz (.operands g extra)) s = .next s.accepted) ∧
    (∀ bytes : List Byte, exec (.buzz (.short bytes)) s = .next s.accepted)

/-- 40_frame_commands R112: both halves valid, both records are written with one acceptance time; either half invalid
(decision D10) or fewer than eight payload bytes (D11), neither is; one trigger pulse in every case. -/
def Obligations.CombWritesBothChannelsOrNeither : Prop :=
  ∀ s : State,
    (∀ (a b : FieldGroup) (extra : List Byte), a.freq ≠ 0 → a.dur ≠ 0 → b.freq ≠ 0 → b.dur ≠ 0 →
      ∃ ra rb : Channel, Activated ra a s.now ∧ Activated rb b s.now ∧
        exec (.comb (.operands a b extra)) s = .next { s.accepted with chVA := ra, chBZ := rb }) ∧
    (∀ (a b : FieldGroup) (extra : List Byte), (a.freq = 0 ∨ a.dur = 0 ∨ b.freq = 0 ∨ b.dur = 0) →
      exec (.comb (.operands a b extra)) s = .next s.accepted) ∧
    (∀ bytes : List Byte, exec (.comb (.short bytes)) s = .next s.accepted)

/-- 40_frame_commands R113, 60_exceptions R162: an accepted frame with an unknown selector asserts the trigger,
whatever its payload, and changes no channel and no output but `TRIG`. -/
def Obligations.IgnOnlyAssertsTheTrigger : Prop :=
  ∀ (s : State) (source : Byte) (payload : List Byte), exec (.ign source payload) s = .next s.accepted

/-- 40_frame_commands R114: `DROP` sets the count to 0 and the phase stays `HDR`; nothing outside the Decoder
changes. In a step: the third byte of a header read whose first byte is not `0xAA` ends the header read, whatever
the other two bytes are, so no payload read follows; its time is used for nothing but the clock itself. -/
def Obligations.DropForgetsTheHeader : Prop :=
  (∀ (s : State) (marker second third : Byte),
    exec (.drop marker second third) s = .next { s with dec := { s.dec with phase := .hdr, cnt := 0 } }) ∧
  ∀ (s : State) (t : Nat) (b : Byte) (rest : List Delivery), s.nextEvent = .byte t b rest →
    s.dec.phase = .hdr → s.dec.cnt = 2 → s.dec.hdr[0] ≠ 0xAA →
    ∃ d : Decoder, d.phase = .hdr ∧ d.cnt = 0 ∧ step s = .next { s with now := t, rx := rest, dec := d }

/-- 40_frame_commands R117 (the spec's own derivation), with R104 and 30_encoding R92: from a frame boundary, the bytes of a one-channel
command with `length >= 4` and valid operands, delivered before the next tick, leave its channel active with the period and
the deadline they spell, counted from the time of the last byte; those of a combined command with `length >= 8` and two
valid halves do so for both channels. The trigger is asserted with the same time. The
selector values are log 12, the taking of late bytes is log 6. -/
def Obligations.CommandBytesActivateTheirChannels : Prop :=
  ∀ (s : State) (ds rest : List Delivery), s.dec.phase = .hdr → s.dec.cnt = 0 → s.rx = ds ++ rest →
    s.now < s.nextTick → (∀ d ∈ ds, d.time < s.nextTick) →
    (∀ (c : ChannelId) (source : Byte), (source = 0x76 ∧ c = .VA) ∨ (source = 0x77 ∧ c = .VB) ∨ (source = 0x62 ∧ c = .BZ) →
      ∀ (len amp freq lo hi : Byte) (extra : List Byte), len.toNat = 4 + extra.length →
        freq ≠ 0 → lo.toNat + 256 * hi.toNat ≠ 0 →
        ds.map Delivery.byte = [0xAA, source, len, amp, freq, lo, hi] ++ extra →
        ∃ t : State, run ds.length s = .next t ∧
          t.now = (ds.map Delivery.time).foldl max s.now ∧ t.rx = rest ∧
          (t.ch c).active = true ∧ (t.ch c).amplitude = amp ∧ (t.ch c).period.toNat = 1000000 / freq.toNat ∧
          (t.ch c).deadline = t.now + 1000 * (lo.toNat + 256 * hi.toNat) ∧
          t.trig.deadline = t.now + 5000 ∧ t.trigLine = true) ∧
    (∀ (len amp freq lo hi amp' freq' lo' hi' : Byte) (extra : List Byte), len.toNat = 8 + extra.length →
      freq ≠ 0 → lo.toNat + 256 * hi.toNat ≠ 0 → freq' ≠ 0 → lo'.toNat + 256 * hi'.toNat ≠ 0 →
      ds.map Delivery.byte = [0xAA, 0x63, len, amp, freq, lo, hi, amp', freq', lo', hi'] ++ extra →
      ∃ t : State, run ds.length s = .next t ∧
        t.now = (ds.map Delivery.time).foldl max s.now ∧ t.rx = rest ∧
        t.chVA.active = true ∧ t.chVA.amplitude = amp ∧ t.chVA.period.toNat = 1000000 / freq.toNat ∧
        t.chVA.deadline = t.now + 1000 * (lo.toNat + 256 * hi.toNat) ∧
        t.chBZ.active = true ∧ t.chBZ.amplitude = amp' ∧ t.chBZ.period.toNat = 1000000 / freq'.toNat ∧
        t.chBZ.deadline = t.now + 1000 * (lo'.toNat + 256 * hi'.toNat) ∧
        t.trig.deadline = t.now + 5000 ∧ t.trigLine = true)

/-- 40_frame_commands R106: an activation writes the five fields from the operands and the acceptance time, does
not read the old record, and writes nothing else, no output register among them; the period is 3921 to 1_000_000
and the deadline 1000 to 65_535_000 microseconds away. -/
def Obligations.ActivateWritesFiveFields : Prop :=
  ∀ (s : State) (c : ChannelId) (g : FieldGroup), g.freq ≠ 0 → g.dur ≠ 0 →
    ∃ r : Channel, Activated r g s.now ∧
      3921 ≤ r.period.toNat ∧ r.period.toNat ≤ 1000000 ∧
      s.now + 1000 ≤ r.deadline ∧ r.deadline ≤ s.now + 65535000 ∧
      ∀ old : Channel, (s.setCh c old).activate c g = s.setCh c r

/-- 40_frame_commands R107: every accepted frame, whatever its source, its operands and what was there before,
sets the trigger's deadline to 5000 microseconds after its acceptance and raises the line. -/
def Obligations.EveryAcceptedFrameAssertsTheTrigger : Prop :=
  ∀ (i : Instr) (s : State), acceptedFrame i = true →
    ∃ t : State, exec i s = .next t ∧ t.trig = { deadline := s.now + 5000, active := true } ∧ t.trigLine = true

/-- 40_frame_commands R115: a valid command leaves the same state whatever record the channel had, active or not;
nothing of the old activation survives. One clause for each command that targets the channel. -/
def Obligations.ValidCommandOverwritesTheRecord : Prop :=
  ∀ (s : State) (g g' : FieldGroup) (extra : List Byte) (old old' : Channel),
    g.freq ≠ 0 → g.dur ≠ 0 → g'.freq ≠ 0 → g'.dur ≠ 0 →
    (∃ t : State, exec (.viba (.operands g extra)) { s with chVA := old } = .next t ∧ t.chVB = s.chVB ∧ t.chBZ = s.chBZ ∧
      exec (.viba (.operands g extra)) s = .next t) ∧
    (∃ t : State, exec (.vibb (.operands g extra)) { s with chVB := old } = .next t ∧ t.chVA = s.chVA ∧ t.chBZ = s.chBZ ∧
      exec (.vibb (.operands g extra)) s = .next t) ∧
    (∃ t : State, exec (.buzz (.operands g extra)) { s with chBZ := old } = .next t ∧ t.chVA = s.chVA ∧ t.chVB = s.chVB ∧
      exec (.buzz (.operands g extra)) s = .next t) ∧
    (∃ t : State, exec (.comb (.operands g g' extra)) { s with chVA := old, chBZ := old' } = .next t ∧ t.chVB = s.chVB ∧
      exec (.comb (.operands g g' extra)) s = .next t)

/-- 40_frame_commands R116: no frame writes a channel's output register, clears an `active` bit, deasserts the
trigger, takes a byte or moves the clock; and no frame reads a Channel record: with another record in its place the
frame either writes that record all the same or leaves it as it was put. -/
def Obligations.FramesNeverTouchOutputsOrClearFlags : Prop :=
  ∀ (i : Instr) (s : State), i ≠ .tick →
    ∃ t : State, exec i s = .next t ∧
      t.outVA = s.outVA ∧ t.outBZ = s.outBZ ∧ t.outVB = s.outVB ∧
      (∀ c : ChannelId, (s.ch c).active = true → (t.ch c).active = true) ∧
      (s.trig.active = true → t.trig.active = true) ∧ (s.trigLine = true → t.trigLine = true) ∧
      t.rx = s.rx ∧ t.now = s.now ∧ t.nextTick = s.nextTick ∧
      ∀ (c : ChannelId) (r : Channel),
        exec i (s.setCh c r) = .next t ∨ exec i (s.setCh c r) = .next (t.setCh c r)

/-- 60_exceptions R160 to R164 (labels and policies are the spec's decisions D8 to D11, D28): each condition is silent. `FRAMING` changes nothing
outside the Decoder; `UNKNOWN_SOURCE`, `SHORT_PAYLOAD` and `INVALID_PARAM` change no channel and assert the trigger. -/
def Obligations.ConditionsAreSilent : Prop :=
  ∀ (i : Instr) (s : State),
    (conditionOf i = some .framing → exec i s = .next { s with dec := { s.dec with phase := .hdr, cnt := 0 } }) ∧
    (conditionOf i = some .unknownSource ∨ conditionOf i = some .shortPayload ∨ conditionOf i = some .invalidParam →
      exec i s = .next s.accepted)

/-! ## The tick -/

/-- 41_pulse_scheduler R130: the tick's whole effect on every state and at every `NOW`. Both alternating channels turn off,
emit or idle; Vibration-B is only turned off; the trigger is lowered when its deadline has passed; nothing else
changes. That the direction is the parity of the floored quotient is `ELAPSED_ARITH = floor_int`, the spec's decision D7
and the model's choice (log 7, DESIGN CHOICE). Where the half-period is 0, which no run reaches, the direction alone is
left open (R148, log 8). -/
def Obligations.TickEvolvesEveryChannelAndTheTrigger : Prop :=
  ∀ s : State, ∃ t : State, exec .tick s = .next t ∧
    AlternatingTick s.now s.chVA s.outVA t.chVA t.outVA ∧
    AlternatingTick s.now s.chBZ s.outBZ t.chBZ t.outBZ ∧
    (s.chVB.active = true ∧ s.chVB.deadline < s.now → t.chVB = { s.chVB with active := false } ∧ t.outVB = 0) ∧
    (¬(s.chVB.active = true ∧ s.chVB.deadline < s.now) → t.chVB = s.chVB ∧ t.outVB = s.outVB) ∧
    (s.trig.deadline < s.now → t.trig = { s.trig with active := false } ∧ t.trigLine = false) ∧
    (s.now ≤ s.trig.deadline → t.trig = s.trig ∧ t.trigLine = s.trigLine) ∧
    t.dec = s.dec ∧ t.now = s.now ∧ t.nextTick = s.nextTick ∧ t.rx = s.rx

/-- 41_pulse_scheduler R147: what a tick never does. It neither writes nor reads the Decoder, sets no flag, writes no
operand field, asserts no trigger, takes no byte, and always completes. -/
def Obligations.TickNeverSetsAFlagOrReadsTheDecoder : Prop :=
  ∀ s : State, ∃ t : State, exec .tick s = .next t ∧
    t.dec = s.dec ∧ t.rx = s.rx ∧
    (∀ c : ChannelId, ((t.ch c).active = true → (s.ch c).active = true) ∧
      (t.ch c).amplitude = (s.ch c).amplitude ∧ (t.ch c).period = (s.ch c).period ∧
      (t.ch c).deadline = (s.ch c).deadline ∧ (t.ch c).startTime = (s.ch c).startTime) ∧
    (t.trig.active = true → s.trig.active = true) ∧ (t.trigLine = true → s.trigLine = true) ∧
    ∀ d : Decoder, exec .tick { s with dec := d } = .next { t with dec := d }

/-- 10_state R27 b: immediately after a tick at time `t`, an active channel's deadline is at or after `t`. -/
def Obligations.AfterATickActiveMeansNotExpired : Prop :=
  ∀ s t : State, exec .tick s = .next t → ∀ c : ChannelId, (t.ch c).active = true → t.now ≤ (t.ch c).deadline

/-- 41_pulse_scheduler R132: Vibration-A and the Buzzer follow the same rules; exchanging the two before a tick exchanges
them after it. The premise on active channels' periods holds in every reachable state (10_state R27 a). -/
def Obligations.BothAlternatingChannelsFollowOneRule : Prop :=
  ∀ s t : State, (s.chVA.active = true → 2 ≤ s.chVA.period.toNat) → (s.chBZ.active = true → 2 ≤ s.chBZ.period.toNat) →
    exec .tick s = .next t → exec .tick s.swapped = .next t.swapped

/-- 10_state R40, 95_test_vectors K10: a second tick at the same time changes nothing. -/
def Obligations.TickIsIdempotentAtOneTime : Prop :=
  ∀ s t : State, exec .tick s = .next t → exec .tick t = .next t

/-- 60_exceptions R170 a, commit then tick at one microsecond: the line stays high, and a valid `VIBA` already emits its
level at its own acceptance time. -/
def Obligations.TickAfterACommitSeesTheNewRecord : Prop :=
  ∀ s : State,
    (∀ i : Instr, acceptedFrame i = true →
      ∃ t u : State, exec i s = .next t ∧ exec .tick t = .next u ∧ u.trigLine = true ∧ u.trig = t.trig) ∧
    (∀ (g : FieldGroup) (extra : List Byte), g.freq ≠ 0 → g.dur ≠ 0 →
      ∃ t u : State, exec (.viba (.operands g extra)) s = .next t ∧ exec .tick t = .next u ∧
        u.chVA = t.chVA ∧ u.chVA.active = true ∧ u.outVA.level.toNat = 4 * g.amp.toNat)

/-! ## Arithmetic -/

/-- 41_pulse_scheduler R136 (decision D7): up to the deadline the direction is the parity of the remaining time
in half-periods, rounded up. -/
def Obligations.DirectionIsParityOfRemainingHalfPeriods : Prop :=
  ∀ (c : ChannelId) (now deadline : Nat) (period : Period), now ≤ deadline → 2 ≤ period.toNat →
    (direction .floorInt c now deadline period = true ↔
      ((deadline - now) + period.toNat / 2 - 1) / (period.toNat / 2) % 2 = 1)

/-- 41_pulse_scheduler R143 (the spec's own derivation): the direction is 1 exactly in the odd half-period buckets counted backwards
from the deadline, and 0 at the deadline. -/
def Obligations.DirectionAlternatesByHalfPeriodBucket : Prop :=
  ∀ (c : ChannelId) (now deadline : Nat) (period : Period), now ≤ deadline → 2 ≤ period.toNat →
    (direction .floorInt c now deadline period = true ↔
      ∃ j : Nat, 2 * j * (period.toNat / 2) < deadline - now ∧ deadline - now ≤ (2 * j + 1) * (period.toNat / 2))

/-- 41_pulse_scheduler R141: the alternative unsigned 64-bit reading, and that the two readings agree at the deadline. -/
def Obligations.WrappedDirectionIsUnsignedQuotientParity : Prop :=
  ∀ (c : ChannelId) (now deadline : Nat) (period : Period), 2 ≤ period.toNat →
    (now < deadline → deadline - now ≤ 2 ^ 64 →
      (direction .wrapU64 c now deadline period = true ↔
        (2 ^ 64 - (deadline - now)) / (period.toNat / 2) % 2 = 1)) ∧
    (now = deadline → direction .wrapU64 c now deadline period = false ∧ direction .floorInt c now deadline period = false)

/-- 41_pulse_scheduler R142: the stored period, its half, and the level, with their ranges; no stored result is cut by its field. -/
def Obligations.StoredResultsFitTheirFields : Prop :=
  (∀ freq : Byte, freq ≠ 0 →
    (periodOf freq).toNat = 1000000 / freq.toNat ∧ 3921 ≤ (periodOf freq).toNat ∧ (periodOf freq).toNat ≤ 1000000 ∧
    halfPeriod (periodOf freq) = 1000000 / (2 * freq.toNat) ∧
    1960 ≤ halfPeriod (periodOf freq) ∧ halfPeriod (periodOf freq) ≤ 500000) ∧
  (∀ amplitude : Byte, (levelOf amplitude).toNat = 4 * amplitude.toNat ∧ (levelOf amplitude).toNat ≤ 1020) ∧
  (∀ (t : Nat) (dur : Millis), t + 65535000 < 2 ^ 64 →
    deadlineOf t dur = t + 1000 * dur.toNat ∧ deadlineOf t dur < 2 ^ 64)

/-! ## Reset, invariants, whole-machine rules -/

/-- 10_state R43 and 70_reset_and_hazards R190 to R192: every element after reset, for every value of the open parameters. The source
gives `amplitude` and `active`; the other values are the spec's decision D16 and, for the clock, the timer and the
stream, D1, D2 and D22. -/
def Obligations.ResetMakesEverythingInert : Prop :=
  ∀ tReset tickT0 : Nat,
    (∀ c : ChannelId, (State.resetAt tReset tickT0).ch c =
      { amplitude := 0, period := 0, deadline := 0, active := false, startTime := 0 }) ∧
    (State.resetAt tReset tickT0).trig = { deadline := 0, active := false } ∧
    (State.resetAt tReset tickT0).dec =
      { phase := .hdr, cnt := 0, hdr := Vector.replicate 3 0, pl := Vector.replicate 8 0 } ∧
    (State.resetAt tReset tickT0).outputs =
      { va := { level := 0, dir := false }, bz := { level := 0, dir := false }, vb := 0, trig := false } ∧
    (State.resetAt tReset tickT0).now = tReset ∧ (State.resetAt tReset tickT0).nextTick = tickT0 ∧
    (State.resetAt tReset tickT0).rx = []

/-- The invariant of the reachable states holds after reset (10_state R27, R29, R30; the clock and the timer at the
model's choice, log 2). -/
def Obligations.InvariantHoldsAfterReset : Prop := State.reset.Inv

/-- 10_state R27 a, d, e, f, R29, R30, R36, 60_exceptions R168: every step from a state with the invariant leads to one with it. -/
def Obligations.EveryStepKeepsTheInvariant : Prop :=
  ∀ s t : State, s.Inv → step s = .next t → t.Inv

/-- 10_state R27: the invariant holds in every state a run can reach, from reset at any `T_RESET` and `TICK_T0` the spec
admits and with any bytes at any times. In particular Vibration-B's level is 0 in all of them (41_pulse_scheduler R138). -/
def Obligations.EveryReachableStateHasTheInvariant : Prop :=
  ∀ s : State, Reachable s → s.Inv ∧ s.outVB = 0 ∧
    (s.chVA.active = true → 0 < halfPeriod s.chVA.period) ∧ (s.chBZ.active = true → 0 < halfPeriod s.chBZ.period)

/-- 60_exceptions R160, 40_frame_commands R100, 41_pulse_scheduler R130: no byte and no tick ever stops the block, in any state;
a run of any length goes on. -/
def Obligations.TheBlockNeverStops : Prop :=
  ∀ (k : Nat) (s : State), ∃ t : State, run k s = .next t

/-- 00_scope R13, 20_memory R72: timestamps never decrease along a run that starts with its next tick ahead. -/
def Obligations.TimestampsNeverDecrease : Prop :=
  ∀ (k : Nat) (s t : State), s.now ≤ s.nextTick → run k s = .next t →
    s.now ≤ t.now ∧ t.now ≤ t.nextTick

/-- 60_exceptions R168, R169 (decision D2): the timer moves only by a tick, which happens exactly when it is due, and is
due again 1000 microseconds later; so every tick of a run lies on the grid of the first. -/
def Obligations.TicksStayOnTheGrid : Prop :=
  (∀ s t : State, step s = .next t →
    t.nextTick = s.nextTick ∨ (t.nextTick = s.nextTick + 1000 ∧ t.now = s.nextTick)) ∧
  ∀ (k : Nat) (s t : State), run k s = .next t →
    ∃ n, n ≤ k ∧ t.nextTick = s.nextTick + 1000 * n

/-- 20_memory R69, 70_reset_and_hazards R198: a step leaves a channel's record alone, clears its `active` bit, or replaces all five
fields at once together with the trigger; no mixture of old and new fields is ever seen. -/
def Obligations.RecordsChangeAtomically : Prop :=
  ∀ (s t : State) (c : ChannelId), step s = .next t →
    t.ch c = s.ch c ∨ t.ch c = { s.ch c with active := false } ∨
    ∃ g : FieldGroup, g.freq ≠ 0 ∧ g.dur ≠ 0 ∧ Activated (t.ch c) g t.now ∧
      t.trig = { deadline := t.now + 5000, active := true } ∧ t.trigLine = true

/-- 10_state R43 (column "observable?"), R22, R23, R26, R29, R31, R32: states that differ only in idle records, ghosts, stale
Decoder registers, `trig.active` and the deadline of a low trigger line show the same outputs for ever. -/
def Obligations.UnreadStateNeverShowsOnTheOutputs : Prop :=
  ∀ (k : Nat) (s t : State), s.visible = t.visible →
    ∃ s' t' : State, run k s = .next s' ∧ run k t = .next t' ∧
      s'.visible = t'.visible ∧ s'.outputs = t'.outputs

/-! ## Observed timing -/

/-- 41_pulse_scheduler R146, 70_reset_and_hazards R197 (the spec's own derivation): after an acceptance at `now`, and with no further byte, the
trigger line is high at every step until it falls, more than 5000 and at most 6000 microseconds after the acceptance. -/
def Obligations.TriggerPulseLastsFiveToSixMilliseconds : Prop :=
  ∀ s : State, s.rx = [] → s.trigLine = true → s.trig.deadline = s.now + 5000 →
    s.now ≤ s.nextTick → s.nextTick ≤ s.now + 1000 →
    ∃ (k : Nat) (t : State), run k s = .next t ∧ t.trigLine = false ∧
      s.now + 5000 < t.now ∧ t.now ≤ s.now + 6000 ∧
      ∀ j : Nat, j < k → ∃ u : State, run j s = .next u ∧ u.trigLine = true

/-- 41_pulse_scheduler R133, R145, 70_reset_and_hazards R197: with no further byte an active channel stays active until the first tick past its
deadline, at most 1000 microseconds late and never early; that tick sets its level to 0, and from then on nothing about the
channel changes. -/
def Obligations.PulseEndsAtTheFirstTickPastItsDeadline : Prop :=
  ∀ (s : State) (c : ChannelId), s.rx = [] → (s.ch c).active = true → s.nextTick ≤ (s.ch c).deadline + 1000 →
    ∃ (k : Nat) (t : State), run k s = .next t ∧
      (t.ch c).active = false ∧ t.level c = 0 ∧
      (s.ch c).deadline < t.now ∧ t.now ≤ (s.ch c).deadline + 1000 ∧
      (∀ j : Nat, j < k → ∃ u : State, run j s = .next u ∧ u.ch c = s.ch c) ∧
      ∀ j : Nat, ∃ u : State, run (k + j) s = .next u ∧ u.ch c = t.ch c ∧ u.level c = 0
end

