-- ==== Sys2Proof/Laws/PerInstr.lean ====
section
/-! SUPPORT. Statements about every operation as syntax, one lemma per constructor. -/

namespace Sys2Proof.Laws

/-- 30_encoding R80: a frame is 3 to 258 bytes long, and its `length` byte says how many follow the
header; the event `TICK` has no bytes. -/
def FrameLength.Statement (i : Instr) : Prop :=
  i.wf = true → (i = .tick ∧ encode i = []) ∨ (3 ≤ (encode i).length ∧ (encode i).length ≤ 258)

theorem singlePayload_bytes_length (p : SinglePayload) (h : p.wf = true) : p.bytes.length ≤ 255 := by
  cases p with
  | operands g extra => simp [SinglePayload.wf] at h; simp [SinglePayload.bytes, FieldGroup.bytes]; omega
  | short bytes => simp [SinglePayload.wf] at h; simp [SinglePayload.bytes]; omega

theorem pairPayload_bytes_length (p : PairPayload) (h : p.wf = true) : p.bytes.length ≤ 255 := by
  cases p with
  | operands a b extra => simp [PairPayload.wf] at h; simp [PairPayload.bytes, FieldGroup.bytes]; omega
  | short bytes => simp [PairPayload.wf] at h; simp [PairPayload.bytes]; omega

theorem frame_length (source : Byte) (payload : List Byte) : (frame source payload).length = payload.length + 3 := by
  simp [frame]

theorem FrameLength.viba (p : SinglePayload) : FrameLength.Statement (.viba p) := fun h => by
  have := singlePayload_bytes_length p h
  right; simp only [encode, frame_length]; omega

theorem FrameLength.vibb (p : SinglePayload) : FrameLength.Statement (.vibb p) := fun h => by
  have := singlePayload_bytes_length p h
  right; simp only [encode, frame_length]; omega

theorem FrameLength.buzz (p : SinglePayload) : FrameLength.Statement (.buzz p) := fun h => by
  have := singlePayload_bytes_length p h
  right; simp only [encode, frame_length]; omega

theorem FrameLength.comb (p : PairPayload) : FrameLength.Statement (.comb p) := fun h => by
  have := pairPayload_bytes_length p h
  right; simp only [encode, frame_length]; omega

theorem FrameLength.ign (source : Byte) (payload : List Byte) : FrameLength.Statement (.ign source payload) := fun h => by
  rw [Instr.wf, Bool.and_eq_true, decide_eq_true_eq] at h
  have hl := h.2
  right; simp only [encode, frame_length]; omega

theorem FrameLength.drop (marker second third : Byte) : FrameLength.Statement (.drop marker second third) := fun _ => by
  right; simp [encode]

theorem FrameLength.tick : FrameLength.Statement .tick := fun _ => .inl ⟨rfl, rfl⟩

end Sys2Proof.Laws
end

