-- ==== Sys2Proof/Laws/Decode.lean ====
section
/-! SUPPORT. The duration's two bytes, payloads and their bytes, frames and their bytes. -/

namespace Sys2Proof

theorem lowByte_toNat (d : Millis) : (lowByte d).toNat = d.toNat % 256 := by simp [lowByte]

theorem highByte_toNat (d : Millis) : (highByte d).toNat = d.toNat / 256 := by
  have := d.isLt
  simp [highByte, Nat.shiftRight_eq_div_pow]; omega

/-- The value of two bytes, in the additive form that arithmetic wants. -/
theorem le16_value (lo hi : Byte) : (le16 lo hi).toNat = hi.toNat * 256 + lo.toNat := by
  have := lo.isLt
  simp only [le16, BitVec.toNat_append]
  rw [← Nat.shiftLeft_add_eq_or_of_lt (by omega), Nat.shiftLeft_eq]

@[simp] theorem le16_lowByte_highByte (d : Millis) : le16 (lowByte d) (highByte d) = d :=
  BitVec.eq_of_toNat_eq (by rw [le16_value, lowByte_toNat, highByte_toNat]; omega)

@[simp] theorem lowByte_le16 (lo hi : Byte) : lowByte (le16 lo hi) = lo :=
  BitVec.eq_of_toNat_eq (by have := lo.isLt; rw [lowByte_toNat, le16_value]; omega)

@[simp] theorem highByte_le16 (lo hi : Byte) : highByte (le16 lo hi) = hi :=
  BitVec.eq_of_toNat_eq (by have := lo.isLt; rw [highByte_toNat, le16_value]; omega)

/-- A payload read back from its own bytes. -/
theorem singlePayload_bytes {p : SinglePayload} (h : p.wf = true) : singlePayload p.bytes = p := by
  cases p with
  | operands g extra => simp [SinglePayload.bytes, FieldGroup.bytes, singlePayload, fieldGroup]
  | short bytes =>
    simp only [SinglePayload.wf, decide_eq_true_eq] at h
    match bytes, h with
    | [], _ => rfl
    | [_], _ => rfl
    | [_, _], _ => rfl
    | [_, _, _], _ => rfl

theorem pairPayload_bytes {p : PairPayload} (h : p.wf = true) : pairPayload p.bytes = p := by
  cases p with
  | operands a b extra => simp [PairPayload.bytes, FieldGroup.bytes, pairPayload, fieldGroup]
  | short bytes =>
    simp only [PairPayload.wf, decide_eq_true_eq] at h
    match bytes, h with
    | [], _ => rfl
    | [_], _ => rfl
    | [_, _], _ => rfl
    | [_, _, _], _ => rfl
    | [_, _, _, _], _ => rfl
    | [_, _, _, _, _], _ => rfl
    | [_, _, _, _, _, _], _ => rfl
    | [_, _, _, _, _, _, _], _ => rfl

/-- The bytes of a payload that was read from bytes. -/
theorem bytes_singlePayload {bytes : List Byte} (h : bytes.length ≤ 255) :
    (singlePayload bytes).bytes = bytes ∧ (singlePayload bytes).wf = true := by
  match bytes, h with
  | [], _ => exact ⟨rfl, rfl⟩
  | [_], _ => exact ⟨rfl, rfl⟩
  | [_, _], _ => exact ⟨rfl, rfl⟩
  | [_, _, _], _ => exact ⟨rfl, rfl⟩
  | _ :: _ :: _ :: _ :: extra, h =>
    simp [singlePayload, SinglePayload.bytes, FieldGroup.bytes, fieldGroup, SinglePayload.wf] at h ⊢; omega

theorem bytes_pairPayload {bytes : List Byte} (h : bytes.length ≤ 255) :
    (pairPayload bytes).bytes = bytes ∧ (pairPayload bytes).wf = true := by
  match bytes, h with
  | [], _ => exact ⟨rfl, rfl⟩
  | [_], _ => exact ⟨rfl, rfl⟩
  | [_, _], _ => exact ⟨rfl, rfl⟩
  | [_, _, _], _ => exact ⟨rfl, rfl⟩
  | [_, _, _, _], _ => exact ⟨rfl, rfl⟩
  | [_, _, _, _, _], _ => exact ⟨rfl, rfl⟩
  | [_, _, _, _, _, _], _ => exact ⟨rfl, rfl⟩
  | [_, _, _, _, _, _, _], _ => exact ⟨rfl, rfl⟩
  | _ :: _ :: _ :: _ :: _ :: _ :: _ :: _ :: extra, h =>
    simp [pairPayload, PairPayload.bytes, FieldGroup.bytes, fieldGroup, PairPayload.wf] at h ⊢; omega

/-- A frame's bytes decode to the dispatch of its payload (30_encoding R80, R86). -/
theorem decode_frame (source : Byte) (payload rest : List Byte) (h : payload.length ≤ 255) :
    decode (frame source payload ++ rest) = .instr (decodeFrame source payload) rest := by
  have e : (BitVec.ofNat 8 payload.length).toNat = payload.length := by simp; omega
  simp only [frame, List.cons_append, decode, e]
  rw [if_neg (by simp), if_neg (by simp)]
  simp

/-- A dispatched payload is well formed and encodes to its frame. -/
theorem encode_decodeFrame (source : Byte) (payload : List Byte) (h : payload.length ≤ 255) :
    (decodeFrame source payload).wf = true ∧ encode (decodeFrame source payload) = frame source payload := by
  have a := bytes_singlePayload h
  have b := bytes_pairPayload h
  unfold decodeFrame
  split
  · next e => subst e; simp [Instr.wf, encode, a]
  · split
    · next e => subst e; simp [Instr.wf, encode, a]
    · split
      · next e => subst e; simp [Instr.wf, encode, a]
      · split
        · next e => subst e; simp [Instr.wf, encode, b]
        · next h1 h2 h3 h4 => simp at h1 h2 h3 h4; simp [Instr.wf, encode, isSelector, *]

/-- A well-formed frame is a marked frame of at most 255 payload bytes, or a dropped header. -/
theorem encode_cases {i : Instr} (h : i.wf = true) (ht : i ≠ .tick) :
    (∃ marker second third, i = .drop marker second third ∧ marker ≠ 0xAA) ∨
    ∃ source payload, encode i = frame source payload ∧ payload.length ≤ 255 ∧ decodeFrame source payload = i := by
  cases i with
  | viba p => exact .inr ⟨_, _, rfl, Laws.singlePayload_bytes_length p h, by simp [decodeFrame, singlePayload_bytes h]⟩
  | vibb p => exact .inr ⟨_, _, rfl, Laws.singlePayload_bytes_length p h, by simp [decodeFrame, singlePayload_bytes h]⟩
  | buzz p => exact .inr ⟨_, _, rfl, Laws.singlePayload_bytes_length p h, by simp [decodeFrame, singlePayload_bytes h]⟩
  | comb p => exact .inr ⟨_, _, rfl, Laws.pairPayload_bytes_length p h, by simp [decodeFrame, pairPayload_bytes h]⟩
  | ign source payload =>
    rw [Instr.wf, Bool.and_eq_true, decide_eq_true_eq] at h
    have hs := h.1
    simp [isSelector] at hs
    exact .inr ⟨source, payload, rfl, h.2, by simp [decodeFrame, hs]⟩
  | drop marker second third => exact .inl ⟨marker, second, third, rfl, by simpa [Instr.wf] using h⟩
  | tick => exact absurd rfl ht

end Sys2Proof
end

