-- ==== Sys2Proof/Laws/State.lean ====
section
/-! SUPPORT. One lemma per field per update of the state. -/

namespace Sys2Proof.Machine

/-! `ch[c] <- r`: the record read back, the other records, everything else. -/

@[simp] theorem State.setCh_trig (s : State) (c : ChannelId) (r : Channel) : (s.setCh c r).trig = s.trig := by cases c <;> rfl
@[simp] theorem State.setCh_dec (s : State) (c : ChannelId) (r : Channel) : (s.setCh c r).dec = s.dec := by cases c <;> rfl
@[simp] theorem State.setCh_outVA (s : State) (c : ChannelId) (r : Channel) : (s.setCh c r).outVA = s.outVA := by cases c <;> rfl
@[simp] theorem State.setCh_outBZ (s : State) (c : ChannelId) (r : Channel) : (s.setCh c r).outBZ = s.outBZ := by cases c <;> rfl
@[simp] theorem State.setCh_outVB (s : State) (c : ChannelId) (r : Channel) : (s.setCh c r).outVB = s.outVB := by cases c <;> rfl
@[simp] theorem State.setCh_trigLine (s : State) (c : ChannelId) (r : Channel) : (s.setCh c r).trigLine = s.trigLine := by cases c <;> rfl
@[simp] theorem State.setCh_now (s : State) (c : ChannelId) (r : Channel) : (s.setCh c r).now = s.now := by cases c <;> rfl
@[simp] theorem State.setCh_nextTick (s : State) (c : ChannelId) (r : Channel) : (s.setCh c r).nextTick = s.nextTick := by cases c <;> rfl
@[simp] theorem State.setCh_rx (s : State) (c : ChannelId) (r : Channel) : (s.setCh c r).rx = s.rx := by cases c <;> rfl

@[simp] theorem State.setCh_ch (s : State) (c c' : ChannelId) (r : Channel) :
    (s.setCh c r).ch c' = if c' = c then r else s.ch c' := by cases c <;> cases c' <;> rfl

@[simp] theorem State.ch_VA (s : State) : s.ch .VA = s.chVA := rfl
@[simp] theorem State.ch_VB (s : State) : s.ch .VB = s.chVB := rfl
@[simp] theorem State.ch_BZ (s : State) : s.ch .BZ = s.chBZ := rfl
@[simp] theorem State.level_VA (s : State) : s.level .VA = s.outVA.level := rfl
@[simp] theorem State.level_VB (s : State) : s.level .VB = s.outVB := rfl
@[simp] theorem State.level_BZ (s : State) : s.level .BZ = s.outBZ.level := rfl

/-! Activation. -/

@[simp] theorem State.activate_trig (s : State) (c : ChannelId) (g : FieldGroup) : (s.activate c g).trig = s.trig := by cases c <;> rfl
@[simp] theorem State.activate_dec (s : State) (c : ChannelId) (g : FieldGroup) : (s.activate c g).dec = s.dec := by cases c <;> rfl
@[simp] theorem State.activate_outVA (s : State) (c : ChannelId) (g : FieldGroup) : (s.activate c g).outVA = s.outVA := by cases c <;> rfl
@[simp] theorem State.activate_outBZ (s : State) (c : ChannelId) (g : FieldGroup) : (s.activate c g).outBZ = s.outBZ := by cases c <;> rfl
@[simp] theorem State.activate_outVB (s : State) (c : ChannelId) (g : FieldGroup) : (s.activate c g).outVB = s.outVB := by cases c <;> rfl
@[simp] theorem State.activate_trigLine (s : State) (c : ChannelId) (g : FieldGroup) : (s.activate c g).trigLine = s.trigLine := by cases c <;> rfl
@[simp] theorem State.activate_now (s : State) (c : ChannelId) (g : FieldGroup) : (s.activate c g).now = s.now := by cases c <;> rfl
@[simp] theorem State.activate_nextTick (s : State) (c : ChannelId) (g : FieldGroup) : (s.activate c g).nextTick = s.nextTick := by cases c <;> rfl
@[simp] theorem State.activate_rx (s : State) (c : ChannelId) (g : FieldGroup) : (s.activate c g).rx = s.rx := by cases c <;> rfl

@[simp] theorem State.activate_ch (s : State) (c c' : ChannelId) (g : FieldGroup) :
    (s.activate c g).ch c' = if c' = c then activatedChannel g s.now else s.ch c' := by simp [State.activate]

/-! Trigger assertion. -/

@[simp] theorem State.assertTrigger_chVA (s : State) : (s.assertTrigger).chVA = s.chVA := rfl
@[simp] theorem State.assertTrigger_chVB (s : State) : (s.assertTrigger).chVB = s.chVB := rfl
@[simp] theorem State.assertTrigger_chBZ (s : State) : (s.assertTrigger).chBZ = s.chBZ := rfl
@[simp] theorem State.assertTrigger_trig (s : State) : (s.assertTrigger).trig = { deadline := s.now + 5000, active := true } := rfl
@[simp] theorem State.assertTrigger_dec (s : State) : (s.assertTrigger).dec = s.dec := rfl
@[simp] theorem State.assertTrigger_outVA (s : State) : (s.assertTrigger).outVA = s.outVA := rfl
@[simp] theorem State.assertTrigger_outBZ (s : State) : (s.assertTrigger).outBZ = s.outBZ := rfl
@[simp] theorem State.assertTrigger_outVB (s : State) : (s.assertTrigger).outVB = s.outVB := rfl
@[simp] theorem State.assertTrigger_trigLine (s : State) : (s.assertTrigger).trigLine = true := rfl
@[simp] theorem State.assertTrigger_now (s : State) : (s.assertTrigger).now = s.now := rfl
@[simp] theorem State.assertTrigger_nextTick (s : State) : (s.assertTrigger).nextTick = s.nextTick := rfl
@[simp] theorem State.assertTrigger_rx (s : State) : (s.assertTrigger).rx = s.rx := rfl

/-! End of a frame. -/

@[simp] theorem State.endFrame_chVA (s : State) : (s.endFrame).chVA = s.chVA := rfl
@[simp] theorem State.endFrame_chVB (s : State) : (s.endFrame).chVB = s.chVB := rfl
@[simp] theorem State.endFrame_chBZ (s : State) : (s.endFrame).chBZ = s.chBZ := rfl
@[simp] theorem State.endFrame_trig (s : State) : (s.endFrame).trig = s.trig := rfl
@[simp] theorem State.endFrame_dec (s : State) : (s.endFrame).dec = s.dec.endFrame := rfl
@[simp] theorem State.endFrame_outVA (s : State) : (s.endFrame).outVA = s.outVA := rfl
@[simp] theorem State.endFrame_outBZ (s : State) : (s.endFrame).outBZ = s.outBZ := rfl
@[simp] theorem State.endFrame_outVB (s : State) : (s.endFrame).outVB = s.outVB := rfl
@[simp] theorem State.endFrame_trigLine (s : State) : (s.endFrame).trigLine = s.trigLine := rfl
@[simp] theorem State.endFrame_now (s : State) : (s.endFrame).now = s.now := rfl
@[simp] theorem State.endFrame_nextTick (s : State) : (s.endFrame).nextTick = s.nextTick := rfl
@[simp] theorem State.endFrame_rx (s : State) : (s.endFrame).rx = s.rx := rfl

/-! Tick entry. -/

@[simp] theorem State.enterTick_chVA (s : State) : (s.enterTick).chVA = s.chVA := rfl
@[simp] theorem State.enterTick_chVB (s : State) : (s.enterTick).chVB = s.chVB := rfl
@[simp] theorem State.enterTick_chBZ (s : State) : (s.enterTick).chBZ = s.chBZ := rfl
@[simp] theorem State.enterTick_trig (s : State) : (s.enterTick).trig = s.trig := rfl
@[simp] theorem State.enterTick_dec (s : State) : (s.enterTick).dec = s.dec := rfl
@[simp] theorem State.enterTick_outVA (s : State) : (s.enterTick).outVA = s.outVA := rfl
@[simp] theorem State.enterTick_outBZ (s : State) : (s.enterTick).outBZ = s.outBZ := rfl
@[simp] theorem State.enterTick_outVB (s : State) : (s.enterTick).outVB = s.outVB := rfl
@[simp] theorem State.enterTick_trigLine (s : State) : (s.enterTick).trigLine = s.trigLine := rfl
@[simp] theorem State.enterTick_now (s : State) : (s.enterTick).now = s.nextTick := rfl
@[simp] theorem State.enterTick_nextTick (s : State) : (s.enterTick).nextTick = s.nextTick + 1000 := rfl
@[simp] theorem State.enterTick_rx (s : State) : (s.enterTick).rx = s.rx := rfl

/-! A byte leaves the stream. -/

@[simp] theorem State.takeByte_chVA (s : State) (t : Nat) (rest : List Delivery) : (s.takeByte t rest).chVA = s.chVA := rfl
@[simp] theorem State.takeByte_chVB (s : State) (t : Nat) (rest : List Delivery) : (s.takeByte t rest).chVB = s.chVB := rfl
@[simp] theorem State.takeByte_chBZ (s : State) (t : Nat) (rest : List Delivery) : (s.takeByte t rest).chBZ = s.chBZ := rfl
@[simp] theorem State.takeByte_trig (s : State) (t : Nat) (rest : List Delivery) : (s.takeByte t rest).trig = s.trig := rfl
@[simp] theorem State.takeByte_dec (s : State) (t : Nat) (rest : List Delivery) : (s.takeByte t rest).dec = s.dec := rfl
@[simp] theorem State.takeByte_outVA (s : State) (t : Nat) (rest : List Delivery) : (s.takeByte t rest).outVA = s.outVA := rfl
@[simp] theorem State.takeByte_outBZ (s : State) (t : Nat) (rest : List Delivery) : (s.takeByte t rest).outBZ = s.outBZ := rfl
@[simp] theorem State.takeByte_outVB (s : State) (t : Nat) (rest : List Delivery) : (s.takeByte t rest).outVB = s.outVB := rfl
@[simp] theorem State.takeByte_trigLine (s : State) (t : Nat) (rest : List Delivery) : (s.takeByte t rest).trigLine = s.trigLine := rfl
@[simp] theorem State.takeByte_now (s : State) (t : Nat) (rest : List Delivery) : (s.takeByte t rest).now = t := rfl
@[simp] theorem State.takeByte_nextTick (s : State) (t : Nat) (rest : List Delivery) : (s.takeByte t rest).nextTick = s.nextTick := rfl
@[simp] theorem State.takeByte_rx (s : State) (t : Nat) (rest : List Delivery) : (s.takeByte t rest).rx = rest := rfl

/-! Bytes enter the stream. -/

@[simp] theorem State.deliver_chVA (s : State) (ds : List Delivery) : (s.deliver ds).chVA = s.chVA := rfl
@[simp] theorem State.deliver_chVB (s : State) (ds : List Delivery) : (s.deliver ds).chVB = s.chVB := rfl
@[simp] theorem State.deliver_chBZ (s : State) (ds : List Delivery) : (s.deliver ds).chBZ = s.chBZ := rfl
@[simp] theorem State.deliver_trig (s : State) (ds : List Delivery) : (s.deliver ds).trig = s.trig := rfl
@[simp] theorem State.deliver_dec (s : State) (ds : List Delivery) : (s.deliver ds).dec = s.dec := rfl
@[simp] theorem State.deliver_outVA (s : State) (ds : List Delivery) : (s.deliver ds).outVA = s.outVA := rfl
@[simp] theorem State.deliver_outBZ (s : State) (ds : List Delivery) : (s.deliver ds).outBZ = s.outBZ := rfl
@[simp] theorem State.deliver_outVB (s : State) (ds : List Delivery) : (s.deliver ds).outVB = s.outVB := rfl
@[simp] theorem State.deliver_trigLine (s : State) (ds : List Delivery) : (s.deliver ds).trigLine = s.trigLine := rfl
@[simp] theorem State.deliver_now (s : State) (ds : List Delivery) : (s.deliver ds).now = s.now := rfl
@[simp] theorem State.deliver_nextTick (s : State) (ds : List Delivery) : (s.deliver ds).nextTick = s.nextTick := rfl
@[simp] theorem State.deliver_rx (s : State) (ds : List Delivery) : (s.deliver ds).rx = s.rx ++ ds := rfl

/-! No byte pending. -/

@[simp] theorem State.placeTick_chVA (s : State) : (s.placeTick).chVA = s.chVA := rfl
@[simp] theorem State.placeTick_chVB (s : State) : (s.placeTick).chVB = s.chVB := rfl
@[simp] theorem State.placeTick_chBZ (s : State) : (s.placeTick).chBZ = s.chBZ := rfl
@[simp] theorem State.placeTick_trig (s : State) : (s.placeTick).trig = s.trig := rfl
@[simp] theorem State.placeTick_dec (s : State) : (s.placeTick).dec = s.dec := rfl
@[simp] theorem State.placeTick_outVA (s : State) : (s.placeTick).outVA = s.outVA := rfl
@[simp] theorem State.placeTick_outBZ (s : State) : (s.placeTick).outBZ = s.outBZ := rfl
@[simp] theorem State.placeTick_outVB (s : State) : (s.placeTick).outVB = s.outVB := rfl
@[simp] theorem State.placeTick_trigLine (s : State) : (s.placeTick).trigLine = s.trigLine := rfl
@[simp] theorem State.placeTick_now (s : State) : (s.placeTick).now = s.now := rfl
@[simp] theorem State.placeTick_nextTick (s : State) : (s.placeTick).nextTick = s.nextTick := rfl
@[simp] theorem State.placeTick_rx (s : State) : (s.placeTick).rx = [] := rfl

/-! A scheduler pass. -/

@[simp] theorem State.tickPass_chVA (s : State) (arith : ElapsedArith) : (s.tickPass arith).chVA = tickedChannel s.now s.chVA := rfl
@[simp] theorem State.tickPass_chVB (s : State) (arith : ElapsedArith) : (s.tickPass arith).chVB = tickedChannel s.now s.chVB := rfl
@[simp] theorem State.tickPass_chBZ (s : State) (arith : ElapsedArith) : (s.tickPass arith).chBZ = tickedChannel s.now s.chBZ := rfl
@[simp] theorem State.tickPass_trig (s : State) (arith : ElapsedArith) : (s.tickPass arith).trig = tickedTrigger s.now s.trig := rfl
@[simp] theorem State.tickPass_dec (s : State) (arith : ElapsedArith) : (s.tickPass arith).dec = s.dec := rfl
@[simp] theorem State.tickPass_outVA (s : State) (arith : ElapsedArith) : (s.tickPass arith).outVA = tickedOutput arith .VA s.now s.chVA s.outVA := rfl
@[simp] theorem State.tickPass_outBZ (s : State) (arith : ElapsedArith) : (s.tickPass arith).outBZ = tickedOutput arith .BZ s.now s.chBZ s.outBZ := rfl
@[simp] theorem State.tickPass_outVB (s : State) (arith : ElapsedArith) : (s.tickPass arith).outVB = tickedLevelVB s.now s.chVB s.outVB := rfl
@[simp] theorem State.tickPass_trigLine (s : State) (arith : ElapsedArith) : (s.tickPass arith).trigLine = tickedLine s.now s.trig s.trigLine := rfl
@[simp] theorem State.tickPass_now (s : State) (arith : ElapsedArith) : (s.tickPass arith).now = s.now := rfl
@[simp] theorem State.tickPass_nextTick (s : State) (arith : ElapsedArith) : (s.tickPass arith).nextTick = s.nextTick := rfl
@[simp] theorem State.tickPass_rx (s : State) (arith : ElapsedArith) : (s.tickPass arith).rx = s.rx := rfl

@[simp] theorem State.tickPass_ch (s : State) (arith : ElapsedArith) (c : ChannelId) :
    (s.tickPass arith).ch c = tickedChannel s.now (s.ch c) := by cases c <;> rfl

/-! The Decoder's updates. -/

@[simp] theorem Decoder.endFrame_phase (d : Decoder) : d.endFrame.phase = .hdr := rfl
@[simp] theorem Decoder.endFrame_cnt (d : Decoder) : d.endFrame.cnt = 0 := rfl
@[simp] theorem Decoder.endFrame_hdr (d : Decoder) : d.endFrame.hdr = d.hdr := rfl
@[simp] theorem Decoder.endFrame_pl (d : Decoder) : d.endFrame.pl = d.pl := rfl
@[simp] theorem Decoder.storeHeader_phase (d : Decoder) (b : Byte) : (d.storeHeader b).phase = d.phase := rfl
@[simp] theorem Decoder.storeHeader_cnt (d : Decoder) (b : Byte) : (d.storeHeader b).cnt = d.cnt := rfl
@[simp] theorem Decoder.storeHeader_pl (d : Decoder) (b : Byte) : (d.storeHeader b).pl = d.pl := rfl
@[simp] theorem Decoder.storePayload_phase (d : Decoder) (b : Byte) : (d.storePayload b).phase = d.phase := rfl
@[simp] theorem Decoder.storePayload_cnt (d : Decoder) (b : Byte) : (d.storePayload b).cnt = d.cnt := rfl
@[simp] theorem Decoder.storePayload_hdr (d : Decoder) (b : Byte) : (d.storePayload b).hdr = d.hdr := rfl
@[simp] theorem Decoder.storePayload_pl (d : Decoder) (b : Byte) :
    (d.storePayload b).pl = d.pl.setIfInBounds d.cnt.toNat b := rfl

end Sys2Proof.Machine
end

