-- ==== Sys2Proof/Laws/Ops.lean ====
section
/-! SUPPORT. One lemma for each shared operation, saying what it can do: flags and operands, the commit,
the frames, the byte step, the choice of the next step, the step itself. -/

namespace Sys2Proof.Machine

/-! Operands. -/

theorem groupValid_iff (g : FieldGroup) : groupValid g = true ↔ g.freq ≠ 0 ∧ g.dur ≠ 0 := by
  simp [groupValid]

theorem byte_pos_of_ne_zero {b : Byte} (h : b ≠ 0) : 1 ≤ b.toNat := by
  have : b.toNat ≠ 0 := fun e => h (BitVec.eq_of_toNat_eq (by simpa using e))
  omega

/-- No stored period is cut by its 20-bit field (41_pulse_scheduler R142). -/
theorem periodOf_toNat (freq : Byte) : (periodOf freq).toNat = 1000000 / freq.toNat := by
  have : 1000000 / freq.toNat ≤ 1000000 := Nat.div_le_self _ _
  simp [periodOf]; omega

/-- No level is cut by its 10-bit field (41_pulse_scheduler R142). -/
theorem levelOf_toNat (amplitude : Byte) : (levelOf amplitude).toNat = 4 * amplitude.toNat := by
  have := amplitude.isLt
  simp [levelOf]; omega

theorem activatedChannel_spec (g : FieldGroup) (t : Nat) : Activated (activatedChannel g t) g t :=
  ⟨rfl, periodOf_toNat _, rfl, rfl, rfl⟩

/-! Flags: the two cases of each. -/

@[simp] theorem pastDeadline_iff (now deadline : Nat) : pastDeadline now deadline = true ↔ deadline < now := by
  simp [pastDeadline]

theorem tickedChannel_cases (now : Nat) (r : Channel) :
    (r.active = true ∧ r.deadline < now ∧ tickedChannel now r = { r with active := false }) ∨
    ((r.active = false ∨ now ≤ r.deadline) ∧ tickedChannel now r = r) := by
  cases h : r.active
  · exact .inr ⟨.inl rfl, by simp [tickedChannel, h]⟩
  · by_cases h' : r.deadline < now
    · exact .inl ⟨rfl, h', by simp [tickedChannel, turnedOff, h, h']⟩
    · exact .inr ⟨.inr (Nat.le_of_not_lt h'), by simp [tickedChannel, h, h']⟩

theorem tickedOutput_cases (arith : ElapsedArith) (c : ChannelId) (now : Nat) (r : Channel) (o : AltOutput) :
    (r.active = true ∧ r.deadline < now ∧ tickedOutput arith c now r o = { o with level := 0 }) ∨
    (r.active = true ∧ now ≤ r.deadline ∧ tickedOutput arith c now r o =
      { level := levelOf r.amplitude, dir := direction arith c now r.deadline r.period }) ∨
    (r.active = false ∧ tickedOutput arith c now r o = o) := by
  cases h : r.active
  · exact .inr (.inr ⟨rfl, by simp [tickedOutput, h]⟩)
  · by_cases h' : r.deadline < now
    · exact .inl ⟨rfl, h', by simp [tickedOutput, h, h']⟩
    · exact .inr (.inl ⟨rfl, Nat.le_of_not_lt h', by simp [tickedOutput, h, h']⟩)

theorem tickedLevelVB_cases (now : Nat) (r : Channel) (level : Level) :
    (r.active = true ∧ r.deadline < now ∧ tickedLevelVB now r level = 0) ∨
    ((r.active = false ∨ now ≤ r.deadline) ∧ tickedLevelVB now r level = level) := by
  cases h : r.active
  · exact .inr ⟨.inl rfl, by simp [tickedLevelVB, h]⟩
  · by_cases h' : r.deadline < now
    · exact .inl ⟨rfl, h', by simp [tickedLevelVB, h, h']⟩
    · exact .inr ⟨.inr (Nat.le_of_not_lt h'), by simp [tickedLevelVB, h, h']⟩

theorem tickedTrigger_cases (now : Nat) (t : Trigger) (line : Bool) :
    (t.deadline < now ∧ tickedTrigger now t = { t with active := false } ∧ tickedLine now t line = false) ∨
    (now ≤ t.deadline ∧ tickedTrigger now t = t ∧ tickedLine now t line = line) := by
  by_cases h : t.deadline < now
  · exact .inl ⟨h, by simp [tickedTrigger, h], by simp [tickedLine, h]⟩
  · exact .inr ⟨Nat.le_of_not_lt h, by simp [tickedTrigger, h], by simp [tickedLine, h]⟩

/-! The commit: all activations or none, always the trigger and the end of the frame. -/

theorem State.commit_of_valid (s : State) {targets : List (ChannelId × FieldGroup)}
    (h : (targets.all fun t => groupValid t.2) = true) :
    s.commit targets = ((s.activateAll targets).assertTrigger).endFrame := by simp only [State.commit, h, if_true]

theorem State.commit_of_invalid (s : State) {targets : List (ChannelId × FieldGroup)}
    (h : (targets.all fun t => groupValid t.2) = false) :
    s.commit targets = (s.assertTrigger).endFrame := by simp [State.commit, h]

/-- An activation list changes the channels alone. -/
theorem State.activateAll_frame (targets : List (ChannelId × FieldGroup)) (s : State) :
    (s.activateAll targets).trig = s.trig ∧ (s.activateAll targets).dec = s.dec ∧
    (s.activateAll targets).outVA = s.outVA ∧ (s.activateAll targets).outBZ = s.outBZ ∧
    (s.activateAll targets).outVB = s.outVB ∧ (s.activateAll targets).trigLine = s.trigLine ∧
    (s.activateAll targets).now = s.now ∧ (s.activateAll targets).nextTick = s.nextTick ∧
    (s.activateAll targets).rx = s.rx := by
  induction targets generalizing s with
  | nil => simp [State.activateAll]
  | cons x rest ih => obtain ⟨c, g⟩ := x; simpa [State.activateAll] using ih (s.activate c g)

/-- A channel after an activation list is as before or freshly activated by one of its entries. -/
theorem State.activateAll_ch (targets : List (ChannelId × FieldGroup)) (s : State) (c : ChannelId) :
    (s.activateAll targets).ch c = s.ch c ∨
    ∃ g, (c, g) ∈ targets ∧ (s.activateAll targets).ch c = activatedChannel g s.now := by
  induction targets generalizing s with
  | nil => exact .inl rfl
  | cons x rest ih =>
    obtain ⟨c', g'⟩ := x
    rcases ih (s.activate c' g') with h | ⟨g, hg, h⟩
    · by_cases e : c = c'
      · subst e; exact .inr ⟨g', by simp, by simpa [State.activateAll] using h⟩
      · exact .inl (by simpa [State.activateAll, e] using h)
    · exact .inr ⟨g, by simp [hg], by simpa [State.activateAll] using h⟩

/-- What a commit does not touch, and what it always writes. -/
theorem State.commit_frame (s : State) (targets : List (ChannelId × FieldGroup)) :
    (s.commit targets).trig = { deadline := s.now + 5000, active := true } ∧ (s.commit targets).trigLine = true ∧
    (s.commit targets).dec = s.dec.endFrame ∧
    (s.commit targets).outVA = s.outVA ∧ (s.commit targets).outBZ = s.outBZ ∧ (s.commit targets).outVB = s.outVB ∧
    (s.commit targets).now = s.now ∧ (s.commit targets).nextTick = s.nextTick ∧ (s.commit targets).rx = s.rx := by
  have h := State.activateAll_frame targets s
  cases hv : targets.all fun t => groupValid t.2
  · simp [State.commit_of_invalid s hv]
  · simp [State.commit_of_valid s hv, h]

/-- A channel after a commit is as before, or freshly activated by valid operands. -/
theorem State.commit_ch (s : State) (targets : List (ChannelId × FieldGroup)) (c : ChannelId) :
    (s.commit targets).ch c = s.ch c ∨
    ∃ g, (c, g) ∈ targets ∧ groupValid g = true ∧ (s.commit targets).ch c = activatedChannel g s.now := by
  cases hv : targets.all fun t => groupValid t.2
  · left; simp [State.commit_of_invalid s hv]; cases c <;> rfl
  · have e : (s.commit targets).ch c = (s.activateAll targets).ch c := by
      rw [State.commit_of_valid s hv]; cases c <;> rfl
    rw [e]
    rcases State.activateAll_ch targets s c with h | ⟨g, hg, h⟩
    · exact .inl h
    · exact .inr ⟨g, hg, (List.all_eq_true.mp hv) (c, g) hg, h⟩

/-! The operations: each completes, as a commit, the end of a frame, or a scheduler pass. -/

theorem exec_cases (i : Instr) (s : State) :
    (i = .tick ∧ exec i s = .next (s.tickPass .floorInt)) ∨
    (acceptedFrame i = true ∧ ∃ targets, exec i s = .next (s.commit targets)) ∨
    ((∃ m x y, i = .drop m x y) ∧ exec i s = .next s.endFrame) := by
  cases i with
  | viba p => exact .inr (.inl ⟨rfl, _, rfl⟩)
  | vibb p => exact .inr (.inl ⟨rfl, _, rfl⟩)
  | buzz p => exact .inr (.inl ⟨rfl, _, rfl⟩)
  | comb p => exact .inr (.inl ⟨rfl, _, rfl⟩)
  | ign source payload => exact .inr (.inl ⟨rfl, _, rfl⟩)
  | drop m x y => exact .inr (.inr ⟨⟨m, x, y, rfl⟩, rfl⟩)
  | tick => exact .inl ⟨rfl, rfl⟩

/-- The payload bytes that the registers do not hold are read by no operation (40_frame_commands R103). -/
theorem exec_retained (i : Instr) (s : State) : exec (retained i) s = exec i s := by
  cases i with
  | viba p => cases p <;> rfl
  | vibb p => cases p <;> rfl
  | buzz p => cases p <;> rfl
  | comb p => cases p <;> rfl
  | ign source payload => rfl
  | drop m x y => rfl
  | tick => rfl

/-! The byte step never reads a tick from the registers, and ends a frame only at its last byte. -/

theorem decodeFrame_ne_tick (source : Byte) (payload : List Byte) : decodeFrame source payload ≠ .tick := by
  unfold decodeFrame; split <;> (try split) <;> (try split) <;> (try split) <;> simp

theorem Decoder.rxByte_complete_ne_tick {d d' : Decoder} {b : Byte} {i : Instr} (h : d.rxByte b = .complete d' i) :
    i ≠ .tick := by
  unfold Decoder.rxByte at h
  split at h
  · dsimp only at h
    split at h
    · cases h
    · split at h
      · cases h; simp
      · split at h
        · cases h; exact decodeFrame_ne_tick _ _
        · cases h
  · dsimp only at h
    split at h
    · cases h
    · cases h; exact decodeFrame_ne_tick _ _

/-- The Decoder after a frame's meaning is at a frame boundary with the registers it had. -/
theorem exec_dec_of_ne_tick {i : Instr} {s t : State} (hi : i ≠ .tick) (h : exec i s = .next t) :
    t.dec = s.dec.endFrame := by
  rcases exec_cases i s with ⟨e, -⟩ | ⟨-, targets, e⟩ | ⟨-, e⟩
  · exact absurd e hi
  · rw [e] at h; cases h; exact (State.commit_frame s targets).2.2.1
  · rw [e] at h; cases h; rfl

/-! The step: what it can do. -/

theorem step_cases {s t : State} (h : step s = .next t) :
    (s.nextEvent = .tick ∧ t = s.enterTick.tickPass .floorInt) ∨
    ∃ tm b rest, s.nextEvent = .byte tm b rest ∧
      ((∃ d, s.dec.rxByte b = .more d ∧ t = { s.takeByte tm rest with dec := d }) ∨
       (∃ d i, s.dec.rxByte b = .complete d i ∧ i ≠ .tick ∧ exec i { s.takeByte tm rest with dec := d } = .next t)) := by
  unfold step at h
  split at h
  · next e => cases h; exact .inl ⟨e, rfl⟩
  · next tm b rest e =>
    refine .inr ⟨tm, b, rest, e, ?_⟩
    split at h
    · next d ed => cases h; exact .inl ⟨d, ed, rfl⟩
    · next d i ed => exact .inr ⟨d, i, ed, Decoder.rxByte_complete_ne_tick ed, h⟩

/-! Runs. -/

@[simp] theorem run_zero (s : State) : run 0 s = .next s := rfl

theorem run_succ {s t : State} (n : Nat) (h : step s = .next t) : run (n + 1) s = run n t := by simp only [run, h]

/-- A run cut in two. -/
theorem run_add {s t : State} (m n : Nat) (h : run m s = .next t) : run (m + n) s = run n t := by
  induction m generalizing s with
  | zero => cases h; rw [Nat.zero_add]
  | succ m ih =>
    rw [Nat.succ_add]
    simp only [run] at h ⊢
    split at h
    · exact ih h
    · cases h
    · cases h

/-- A byte is taken only from the front of the stream and not after the next tick. -/
theorem nextEvent_byte {s : State} {tm : Nat} {b : Byte} {rest : List Delivery} (h : s.nextEvent = .byte tm b rest) :
    ∃ d, s.rx = d :: rest ∧ b = d.byte ∧ tm = max s.now d.time ∧ tm ≤ s.nextTick := by
  unfold State.nextEvent at h
  split at h
  · cases h
  · next d r e =>
    dsimp only at h
    split at h
    · next hc => cases h; exact ⟨d, e, rfl, rfl, hc.elim Nat.le_of_lt fun hc => Nat.le_of_eq hc.1⟩
    · cases h

end Sys2Proof.Machine
end

