-- ==== Sys2Proof/Laws/Receive.lean ====
section
/-! SUPPORT. What a sequence of bytes makes of the Decoder, and the run that takes them. -/

namespace Sys2Proof.Machine

/-- The bytes are taken one after another and none of them completes a frame. -/
inductive Decoder.Takes : Decoder → List Byte → Decoder → Prop where
  | nil (d : Decoder) : Decoder.Takes d [] d
  | cons {d d' e : Decoder} {b : Byte} {bytes : List Byte} :
    d.rxByte b = .more d' → Decoder.Takes d' bytes e → Decoder.Takes d (b :: bytes) e

theorem Decoder.Takes.append {d e f : Decoder} {xs ys : List Byte} (h : Takes d xs e) (h' : Takes e ys f) :
    Takes d (xs ++ ys) f := by
  induction h with
  | nil => exact h'
  | cons hb _ ih => exact .cons hb (ih h')

theorem Decoder.Takes.foldl {d e : Decoder} {bytes : List Byte} (h : Takes d bytes e) :
    bytes.foldl Decoder.afterByte d = e := by
  induction h with
  | nil => rfl
  | cons hb _ ih => rw [List.foldl_cons, Decoder.afterByte, hb]; exact ih

/-- The first two header bytes are stored (40_frame_commands R100). -/
theorem Decoder.takes_header (d : Decoder) (hp : d.phase = .hdr) (hc : d.cnt = 0) (m s : Byte) :
    Takes d [m, s] { d with hdr := (d.hdr.set 0 m).set 1 s, cnt := 2 } := by
  refine .cons (d' := { d with hdr := d.hdr.set 0 m, cnt := 1 }) ?_ (.cons ?_ (.nil _))
  · simp [Decoder.rxByte, hp, hc, Decoder.storeHeader]
  · simp [Decoder.rxByte, hp, Decoder.storeHeader]

/-- Inside a payload: the bytes taken so far are counted, and the first eight are in the registers. -/
structure Decoder.Collecting (d : Decoder) (hdr : Vector Byte 3) (taken : List Byte) : Prop where
  phase : d.phase = .payload
  hdr : d.hdr = hdr
  cnt : d.cnt.toNat = taken.length
  pl : d.pl.toList.take taken.length = taken.take 8

theorem Decoder.Collecting.stored {d : Decoder} {hdr : Vector Byte 3} {taken : List Byte} (h : d.Collecting hdr taken)
    (b : Byte) : (d.storePayload b).pl.toList.take (taken.length + 1) = (taken ++ [b]).take 8 := by
  have hl : d.pl.toList.length = 8 := by simp
  have hpl := h.pl
  rw [Decoder.storePayload_pl, h.cnt, Vector.toList_setIfInBounds]
  by_cases hn : taken.length < 8
  · rw [List.take_of_length_le (l := taken ++ [b]) (by simp; omega)]
    rw [List.take_of_length_le (l := taken) (by omega)] at hpl
    rw [List.take_succ_eq_append_getElem (by simp; omega)]
    simp [List.take_set_of_le, hpl]
  · rw [List.set_eq_of_length_le (by omega), List.take_of_length_le (by omega)]
    rw [List.take_of_length_le (by omega)] at hpl
    rw [List.take_append_of_le_length (by omega)]; exact hpl

/-- Payload bytes before the last are collected. -/
theorem Decoder.Collecting.takes {d : Decoder} {hdr : Vector Byte 3} {taken : List Byte} (h : d.Collecting hdr taken)
    (bytes : List Byte) (hl : taken.length + bytes.length < hdr[2].toNat) :
    ∃ e, Takes d bytes e ∧ e.Collecting hdr (taken ++ bytes) := by
  induction bytes generalizing d taken with
  | nil => exact ⟨d, .nil _, by simpa using h⟩
  | cons b bytes ih =>
    simp only [List.length_cons] at hl
    have := hdr[2].isLt
    have hb : d.rxByte b = .more { d.storePayload b with cnt := d.cnt + 1 } := by
      simp only [Decoder.rxByte, h.phase, h.cnt, h.hdr]; rw [if_pos (by omega)]
    have hc : Decoder.Collecting { d.storePayload b with cnt := d.cnt + 1 } hdr (taken ++ [b]) :=
      ⟨h.phase, h.hdr, by have := h.cnt; simp; omega, by rw [List.length_append]; exact h.stored b⟩
    obtain ⟨e, he, hQ⟩ := ih hc (by simp; omega)
    exact ⟨e, .cons hb he, by simpa using hQ⟩

/-- The last payload byte completes the frame. -/
theorem Decoder.Collecting.last {d : Decoder} {hdr : Vector Byte 3} {taken : List Byte} (h : d.Collecting hdr taken)
    (b : Byte) (hl : taken.length + 1 = hdr[2].toNat) :
    d.rxByte b = .complete (d.storePayload b) (decodeFrame hdr[1] ((taken ++ [b]).take 8)) := by
  simp only [Decoder.rxByte, h.phase, h.cnt, h.hdr]
  rw [if_neg (by omega)]
  simp only [Decoder.payload, Decoder.storePayload_hdr, h.hdr, ← hl, h.stored b]

/-- The payload registers' part of a payload decides the operation (40_frame_commands R103). -/
theorem exec_decodeFrame_take (source : Byte) (payload : List Byte) (s : State) :
    exec (decodeFrame source (payload.take 8)) s = exec (decodeFrame source payload) s := by
  have a : ∀ c, singleTargets c (singlePayload (payload.take 8)) = singleTargets c (singlePayload payload) := by
    intro c
    match payload with
    | [] => rfl
    | [_] => rfl
    | [_, _] => rfl
    | [_, _, _] => rfl
    | _ :: _ :: _ :: _ :: _ => rfl
  have b : pairTargets (pairPayload (payload.take 8)) = pairTargets (pairPayload payload) := by
    match payload with
    | [] => rfl
    | [_] => rfl
    | [_, _] => rfl
    | [_, _, _] => rfl
    | [_, _, _, _] => rfl
    | [_, _, _, _, _] => rfl
    | [_, _, _, _, _, _] => rfl
    | [_, _, _, _, _, _, _] => rfl
    | _ :: _ :: _ :: _ :: _ :: _ :: _ :: _ :: _ => rfl
  unfold decodeFrame
  split
  · simp only [exec, execViba, a]
  · split
    · simp only [exec, execVibb, a]
    · split
      · simp only [exec, execBuzz, a]
      · split
        · simp only [exec, execComb, b]
        · rfl

/-- A whole accepted frame from a frame boundary: every byte but the last is taken, the last completes it. -/
theorem Decoder.takes_frame (d : Decoder) (hp : d.phase = .hdr) (hc : d.cnt = 0) (source : Byte) (payload : List Byte)
    (hl : payload.length ≤ 255) :
    ∃ init last e e', frame source payload = init ++ [last] ∧ Takes d init e ∧
      e.rxByte last = .complete e' (decodeFrame source (payload.take 8)) ∧
      e'.hdr = #v[0xAA, source, BitVec.ofNat 8 payload.length] ∧
      e'.pl.toList.take payload.length = payload.take 8 := by
  have h1 := Decoder.takes_header d hp hc 0xAA source
  have hlen : (BitVec.ofNat 8 payload.length).toNat = payload.length := by simp; omega
  have three : ∀ v : Vector Byte 3, v = #v[v[0], v[1], v[2]] := by
    intro v; ext i hi
    match i, hi with
    | 0, _ => rfl
    | 1, _ => rfl
    | 2, _ => rfl
  rcases List.eq_nil_or_concat payload with rfl | ⟨q, b, rfl⟩
  · refine ⟨_, 0, _, Decoder.storeHeader { d with hdr := (d.hdr.set 0 0xAA).set 1 source, cnt := 2 } 0, rfl, h1, ?_, ?_, by simp⟩
    · simp [Decoder.rxByte, hp, Decoder.storeHeader]
    · rw [three (Decoder.hdr _)]; simp [Decoder.storeHeader]
  · generalize hL : (BitVec.ofNat 8 (q.concat b).length : Byte) = L at hlen
    have hL0 : ¬ L = 0#8 := by intro h; rw [h] at hlen; simp at hlen
    generalize hH : ((d.hdr.set 0 0xAA).set 1 source).set 2 L = H
    have hfst : Decoder.rxByte { d with hdr := (d.hdr.set 0 0xAA).set 1 source, cnt := 2 } L =
        .more { d with phase := .payload, cnt := 0, hdr := H } := by
      simp [Decoder.rxByte, hp, Decoder.storeHeader, hL0]; exact hH
    have hcol : Decoder.Collecting { d with phase := .payload, cnt := 0, hdr := H } H [] := ⟨rfl, rfl, rfl, by simp⟩
    have hH2 : H[2].toNat = q.length + 1 := by simp [← hH, hlen]
    have hH1 : H[1] = source := by simp [← hH]
    obtain ⟨f, hf, hQ⟩ := hcol.takes q (by simp [hH2])
    have hg := hQ.last b (by simp [hH2])
    refine ⟨[0xAA, source, L] ++ q, b, f, f.storePayload b, by simp [frame, ← hL], ?_, ?_, ?_, ?_⟩
    · exact h1.append (ys := L :: q) (.cons hfst hf)
    · simpa [hH1] using hg
    · rw [Decoder.storePayload_hdr, hQ.hdr, three H]; simp [← hH]
    · simpa using hQ.stored b

/-- A byte whose time is before the next tick is taken, at its time or now if that is later. -/
theorem nextEvent_of_before {s : State} {d : Delivery} {rest : List Delivery} (h : s.rx = d :: rest)
    (hn : s.now < s.nextTick) (ht : d.time < s.nextTick) : s.nextEvent = .byte (max s.now d.time) d.byte rest := by
  simp only [State.nextEvent, h]; rw [if_pos]; left; omega

/-- With no byte pending a step is a tick. -/
theorem step_of_starved {s : State} (h : s.rx = []) : step s = .next (s.enterTick.tickPass .floorInt) := by
  have e : s.nextEvent = .tick := by simp [State.nextEvent, h]
  rw [step, e]; rfl

theorem foldl_max_lt {ds : List Delivery} {n m : Nat} (h : n < m) (hd : ∀ d ∈ ds, d.time < m) :
    (ds.map Delivery.time).foldl max n < m := by
  induction ds generalizing n with
  | nil => exact h
  | cons d ds ih =>
    have := hd d (by simp)
    exact ih (by omega) fun x hx => hd x (by simp [hx])

/-- A run takes bytes that come before the next tick, one step each, and only the Decoder moves. -/
theorem run_takes {d e : Decoder} {bytes : List Byte} (h : Decoder.Takes d bytes e) (ds rest : List Delivery) (s : State)
    (k : Nat) (hb : ds.map Delivery.byte = bytes) (hd : s.dec = d) (hr : s.rx = ds ++ rest) (hn : s.now < s.nextTick)
    (ht : ∀ x ∈ ds, x.time < s.nextTick) :
    run (ds.length + k) s =
      run k { s with now := (ds.map Delivery.time).foldl max s.now, rx := rest, dec := e } := by
  induction h generalizing ds s with
  | nil d =>
    obtain rfl : ds = [] := by simpa using hb
    obtain rfl : s.rx = rest := by simpa using hr
    subst hd; simp
  | @cons d d' e b bytes hx _ ih =>
    match ds with
    | [] => simp at hb
    | x :: xs =>
      simp only [List.map_cons, List.cons.injEq] at hb
      subst hd
      have hxt := ht x (by simp)
      have hs : step s = .next { s with now := max s.now x.time, rx := xs ++ rest, dec := d' } := by
        rw [step, nextEvent_of_before (by simpa using hr) hn hxt]
        simp only [hb.1, hx]; rfl
      rw [List.length_cons, Nat.add_right_comm, run_succ _ hs,
        ih xs { s with now := max s.now x.time, rx := xs ++ rest, dec := d' } hb.2 rfl rfl (by simp; omega)
          (fun y hy => ht y (by simp [hy]))]
      rfl

end Sys2Proof.Machine
end

