-- ==== Sys2Proof/Tests/Slice0.lean ====
section
/-! SUPPORT. The model's own tests: words written out from the spec's encodings, single steps with the
results of spec/95_test_vectors.md, one refused ill-formed term per check of `WellFormed`, and a witness
for the hypotheses of every obligation. -/

namespace Sys2Proof.Tests

open Sys2Proof.Machine

/-! ## Helpers -/

/-- Bytes that are all delivered at one time, a tick of that microsecond after them. -/
def sent (t : Nat) (bytes : List Byte) : List Delivery :=
  bytes.map fun b => { time := t, byte := b, tickFirst := false }

/-- The block after reset, given bytes at one time. -/
def fed (t : Nat) (bytes : List Byte) : State := State.reset.deliver (sent t bytes)

/-- A question about the state a run or an operation ends in; a stop answers no. -/
def answers (o : Host.Outcome State Fault Refusal) (p : State → Bool) : Bool :=
  match o with
  | .next t => p t
  | .fault _ => false
  | .refused _ => false

/-- The record `(amplitude, period, deadline, active)` of spec/95, its start time left out. -/
def record (r : Channel) : Nat × Nat × Nat × Bool := (r.amplitude.toNat, r.period.toNat, r.deadline, r.active)

/-- The pair `(level, dir)` of spec/95. -/
def output (o : AltOutput) : Nat × Bool := (o.level.toNat, o.dir)

/-- State X of spec/95 section 2.7, at time `t`. -/
def stateX (t : Nat) : State :=
  { State.reset with
    chVA := { amplitude := 200, period := 20000, deadline := 100000, active := true, startTime := 0 }
    chVB := { amplitude := 128, period := 10000, deadline := 100000, active := true, startTime := 0 }
    chBZ := { amplitude := 255, period := 3921, deadline := 200000, active := true, startTime := 0 }
    trig := { deadline := 100000, active := true }
    trigLine := true
    now := t }

/-- The canonical field group of spec/95: amplitude 200, 50 Hz, 100 ms. -/
def canonical : FieldGroup := { amp := 200, freq := 50, dur := 100 }

/-- The least valid operands: amplitude 0, 1 Hz, 1 ms (V3). -/
def least : FieldGroup := { amp := 0, freq := 1, dur := 1 }

/-- The greatest operands (V2). -/
def greatest : FieldGroup := { amp := 255, freq := 255, dur := 65535 }

/-! ## WellFormed: an ill-formed term for each check, which the check refuses (30_encoding R83, R86, R88) -/

theorem test_wf_refuses_operands_too_long : (Instr.viba (.operands canonical (List.replicate 252 0))).wf = false := by
  simp only [Instr.wf, SinglePayload.wf, List.length_replicate]; decide
theorem test_wf_refuses_short_not_short : (Instr.vibb (.short [1, 2, 3, 4])).wf = false := by decide
theorem test_wf_refuses_buzz_too_long : (Instr.buzz (.operands canonical (List.replicate 252 0))).wf = false := by
  simp only [Instr.wf, SinglePayload.wf, List.length_replicate]; decide
theorem test_wf_refuses_pair_too_long : (Instr.comb (.operands canonical canonical (List.replicate 248 0))).wf = false := by
  simp only [Instr.wf, PairPayload.wf, List.length_replicate]; decide
theorem test_wf_refuses_pair_short_not_short : (Instr.comb (.short [1, 2, 3, 4, 5, 6, 7, 8])).wf = false := by decide
theorem test_wf_refuses_ign_with_selector :
    (Instr.ign 0x76 []).wf = false ∧ (Instr.ign 0x77 []).wf = false ∧ (Instr.ign 0x62 []).wf = false ∧
    (Instr.ign 0x63 []).wf = false := by decide
theorem test_wf_refuses_ign_too_long : (Instr.ign 0x56 (List.replicate 256 0)).wf = false := by
  simp only [Instr.wf, List.length_replicate]; decide
theorem test_wf_refuses_drop_with_marker : (Instr.drop 0xAA 0x76 0x04).wf = false := by decide

/-! ## Decode: one stream per constructor, written out from 30_encoding R80 to R90 -/

/-- E1 of spec/95, marker `10101010`, source `01110110`. -/
theorem test_decode_viba :
    decode [0b10101010, 0b01110110, 0b00000100, 0xC8, 0x32, 0x64, 0x00] = .instr (.viba (.operands canonical [])) [] := by
  decide

/-- V12, source `01110111`, and the byte of the next frame left over. -/
theorem test_decode_vibb :
    decode [0b10101010, 0b01110111, 0b00000100, 0x80, 0x64, 0x0A, 0x00, 0x55] =
      .instr (.vibb (.operands { amp := 128, freq := 100, dur := 10 } [])) [0x55] := by decide

/-- V13, source `01100010`: `le16(10, 27) = 10000`. -/
theorem test_decode_buzz :
    decode [0b10101010, 0b01100010, 0b00000100, 0xFF, 0x07, 0x10, 0x27] =
      .instr (.buzz (.operands { amp := 255, freq := 7, dur := 10000 } [])) [] := by decide

/-- V19, source `01100011`: the ninth payload byte is kept as an ignored one. -/
theorem test_decode_comb :
    decode [0b10101010, 0b01100011, 9, 0x64, 0x14, 0xE8, 0x03, 0x96, 0x1E, 0x2C, 0x01, 0x77] =
      .instr (.comb (.operands { amp := 100, freq := 20, dur := 1000 } { amp := 150, freq := 30, dur := 300 } [0x77])) [] := by
  decide

/-- V20, the upper-case selector `01010110`. -/
theorem test_decode_ign :
    decode [0b10101010, 0b01010110, 4, 0xC8, 0x32, 0x64, 0x00] = .instr (.ign 0x56 [0xC8, 0x32, 0x64, 0x00]) [] := by decide

/-- V22: no payload is read although the third byte is 4. -/
theorem test_decode_drop : decode [0x00, 0x76, 0x04, 0xAA] = .instr (.drop 0x00 0x76 0x04) [0xAA] := by decide

/-- V8 and V17: short payloads. -/
theorem test_decode_short :
    decode [0xAA, 0x76, 0x03, 0xC8, 0x32, 0x64] = .instr (.viba (.short [0xC8, 0x32, 0x64])) [] ∧
    decode [0xAA, 0x63, 0x04, 0x64, 0x14, 0xE8, 0x03] = .instr (.comb (.short [0x64, 0x14, 0xE8, 0x03])) [] := by decide

/-- 60_exceptions R165: the stream ends inside a header, inside a payload. -/
theorem test_decode_missing_bytes : decode [0xAA, 0x76] = .headerIncomplete ∧ decode [0xAA, 0x76, 1] = .payloadIncomplete := by
  decide

/-- The event row has no bits; the payload of a table word follows its header. -/
theorem test_decode_table_word :
    decodeTableWord 0 0 = some .tick ∧ decodeTableWord 24 0xAA7601 = some (.viba (.short [0])) ∧
    decodeTableWord 56 0x006432C8AA7604 = some (.viba (.operands canonical [])) := by decide

/-! ## The Decoder's byte step -/

/-- V8: the count after each of the first bytes (P1's first rows). -/
theorem test_header_is_counted :
    answers (run 2 (fed 10 [0xAA, 0x76, 0x04])) (fun t => t.dec.phase == .hdr && t.dec.cnt == 2) = true := by decide

/-- P1 at 30: the header is accepted. -/
theorem test_header_is_accepted :
    answers (run 3 (fed 10 [0xAA, 0x76, 0x04])) (fun t => t.dec.phase == .payload && t.dec.cnt == 0) = true := by decide

/-- V10: `length = 0` commits at the third byte. -/
theorem test_empty_payload_commits :
    answers (run 3 (fed 9 [0xAA, 0x76, 0x00])) (fun t => t.trigLine && t.trig.deadline == 5009 && !t.chVA.active) = true := by
  decide

/-! ## Single steps: the frames -/

/-- V1, the last byte's step. -/
theorem test_viba_valid :
    answers (run 7 (fed 0 [0xAA, 0x76, 0x04, 0xC8, 0x32, 0x64, 0x00])) (fun t =>
      record t.chVA == (200, 20000, 100000, true) && t.trig.deadline == 5000 && output t.outVA == (0, false)) = true := by decide

/-- V4: frequency 0 (D8). -/
theorem test_viba_zero_frequency :
    answers (exec (.viba (.operands { amp := 200, freq := 0, dur := 100 } [])) { State.reset with now := 7 }) (fun t =>
      t.chVA == Channel.reset && t.trig.deadline == 5007 && t.trigLine) = true := by decide

/-- V12: Vibration-A is untouched, its period stays 0 (D17). -/
theorem test_vibb_valid :
    answers (exec (.vibb (.operands { amp := 128, freq := 100, dur := 10 } [])) State.reset) (fun t =>
      record t.chVB == (128, 10000, 10000, true) && t.chVA == Channel.reset && t.outVB == 0) = true := by decide

/-- V13: the remainder of the division is discarded. -/
theorem test_buzz_inexact_period :
    answers (exec (.buzz (.operands { amp := 255, freq := 7, dur := 10000 } [])) State.reset) (fun t =>
      record t.chBZ == (255, 142857, 10000000, true) && t.chVB == Channel.reset) = true := by decide

/-- V3: amplitude 0 is valid. -/
theorem test_buzz_zero_amplitude :
    answers (exec (.buzz (.operands least [])) { State.reset with now := 42 }) (fun t =>
      record t.chBZ == (0, 1000000, 1042, true)) = true := by decide

/-- V14. -/
theorem test_comb_valid :
    answers (exec (.comb (.operands { amp := 100, freq := 20, dur := 1000 } { amp := 150, freq := 30, dur := 300 } []))
      State.reset) (fun t =>
      record t.chVA == (100, 50000, 1000000, true) && record t.chBZ == (150, 33333, 300000, true)) = true := by decide

/-- V16: the second half is invalid, the first is not applied (D10). -/
theorem test_comb_half_invalid :
    answers (exec (.comb (.operands { amp := 100, freq := 20, dur := 1000 } { amp := 150, freq := 30, dur := 0 } []))
      State.reset) (fun t =>
      t.chVA == Channel.reset && t.chBZ == Channel.reset && t.trigLine && t.trig.deadline == 5000) = true := by decide

/-- V20: no channel changes, the trigger fires (D25). -/
theorem test_ign_asserts :
    answers (exec (.ign 0x56 [0xC8, 0x32, 0x64, 0x00]) State.reset) (fun t =>
      t.chVA == Channel.reset && t.trigLine && t.trig.deadline == 5000) = true := by decide

/-- V22: after the drop everything is as at reset. -/
theorem test_drop_changes_nothing :
    answers (run 3 (fed 20 [0x00, 0x76, 0x04])) (fun t =>
      t.chVA == Channel.reset && !t.trigLine && t.dec.phase == .hdr && t.dec.cnt == 0) = true := by decide

/-! ## Single steps: the tick (spec/95 section 2.7) -/

/-- K6: `now = deadline` is not past it. -/
theorem test_tick_at_the_deadline :
    answers (exec .tick (stateX 100000)) (fun t =>
      output t.outVA == (800, false) && t.chVA.active && t.chVB.active && output t.outBZ == (1020, false) && t.trigLine) = true := by
  decide

/-- K7 and K8: three turn-offs and one emission in one tick. -/
theorem test_tick_past_the_deadline :
    answers (exec .tick (stateX 101000)) (fun t =>
      output t.outVA == (0, false) && !t.chVA.active && t.outVB == 0 && !t.chVB.active &&
      output t.outBZ == (1020, true) && t.chBZ.active && !t.trigLine) = true := by decide

/-- 41_pulse_scheduler R136, table K1 at 0, 9999, 10000, 99999 and 100000, in both readings (R141). -/
theorem test_direction_table :
    (direction .floorInt .VA 0 100000 20000, direction .wrapU64 .VA 0 100000 20000) = (false, true) ∧
    (direction .floorInt .VA 9999 100000 20000, direction .wrapU64 .VA 9999 100000 20000) = (false, false) ∧
    (direction .floorInt .VA 10000 100000 20000, direction .wrapU64 .VA 10000 100000 20000) = (true, false) ∧
    (direction .floorInt .VA 99999 100000 20000, direction .wrapU64 .VA 99999 100000 20000) = (true, true) ∧
    (direction .floorInt .VA 100000 100000 20000, direction .wrapU64 .VA 100000 100000 20000) = (false, false) := by decide

/-- Table K3, odd period, at `r = 16666`, `16667` and `33333`. -/
theorem test_direction_odd_period :
    direction .floorInt .BZ 283334 300000 33333 = true ∧ direction .floorInt .BZ 283333 300000 33333 = false ∧
    direction .floorInt .BZ 266667 300000 33333 = true := by decide

/-! ## Steps -/

/-- The opcode table's rows, placed and run as the first step after reset. -/
theorem test_placed_words_run :
    answers (step (State.reset.withFetchWord 24 0xAA7604)) (fun t => t.trigLine && t.dec.phase == .hdr) = true ∧
    answers (step (State.reset.withFetchWord 24 0xAA7704)) (fun t => t.trigLine && !t.chVB.active) = true ∧
    answers (step (State.reset.withFetchWord 24 0x000004)) (fun t => !t.trigLine && t.dec.cnt == 0) = true ∧
    answers (step (State.reset.withFetchWord 0 0)) (fun t => t.now == 1000 && t.nextTick == 2000) = true := by decide

/-- A whole `VIBA` as a table word, its payload above the header (log 11). -/
theorem test_placed_operands_run :
    answers (step (State.reset.withFetchWord 56 0x006432C8AA7604)) (fun t =>
      record t.chVA == (200, 20000, 100000, true)) = true := by decide

/-- P4's tie: a byte and a tick of one microsecond, in either order (60_exceptions R170 a). -/
theorem test_tie_in_both_orders :
    answers (run 2 { State.reset with
      dec := { phase := .hdr, cnt := 2, hdr := #v[0xAA, 0x00, 0x00], pl := Vector.replicate 8 0 }
      rx := [{ time := 1000, byte := 0, tickFirst := true }] }) (fun t => t.nextTick == 2000 && t.trig.deadline == 6000) = true ∧
    answers (step { State.reset with
      dec := { phase := .hdr, cnt := 2, hdr := #v[0xAA, 0x00, 0x00], pl := Vector.replicate 8 0 }
      rx := [{ time := 1000, byte := 0, tickFirst := false }] }) (fun t => t.nextTick == 1000 && t.trig.deadline == 6000) = true := by
  decide

/-! ## Witnesses of the obligations' hypotheses -/

theorem witness_DecodeOfEncodeIsIdentity :
    (Instr.viba (.operands greatest (List.replicate 251 0xAA))).wf = true ∧ (Instr.vibb (.short [])).wf = true ∧
    (Instr.buzz (.short [1, 2, 3])).wf = true ∧ (Instr.comb (.operands least greatest (List.replicate 247 0))).wf = true ∧
    (Instr.ign 0xAA (List.replicate 255 0)).wf = true ∧ (Instr.drop 0xAB 0xAA 0xAA).wf = true ∧
    Instr.viba (.operands greatest (List.replicate 251 0xAA)) ≠ .tick := by
  simp only [Instr.wf, SinglePayload.wf, PairPayload.wf, List.length_replicate]; decide

theorem witness_EncodeOfDecodeIsIdentity :
    decode [0xAA, 0x63, 0x00, 0x11] = .instr (.comb (.short [])) [0x11] ∧ decode [0, 0, 0] = .instr (.drop 0 0 0) [] := by decide

theorem witness_HeaderTableClassifiesEveryHeader :
    decode (0xAA :: 0x62 :: 0x00 :: []) = .instr (.buzz (.short [])) [] ∧ decode (0xA9 :: 0x62 :: 0x00 :: []) = .instr (.drop 0xA9 0x62 0x00) [] := by
  decide

/-- The Decoder in the middle of a header whose first two bytes are given. -/
def inHeader (cnt m s : Byte) : Decoder := { phase := .hdr, cnt := cnt, hdr := #v[m, s, 0], pl := Vector.replicate 8 0 }

/-- The Decoder in a payload. -/
def inPayload (cnt len : Byte) : Decoder := { phase := .payload, cnt := cnt, hdr := #v[0xAA, 0x76, len], pl := Vector.replicate 8 0 }

/-- The block after reset with another Decoder state and one byte pending. -/
def pending (d : Decoder) (b : Byte) : State := { State.reset with dec := d, rx := sent 5 [b] }

theorem witness_ByteStepFollowsTransitionTable :
    (∀ (d : Decoder) (b : Byte), (pending d b).nextEvent = .byte 5 b [] ∧ (pending d b).dec = d) ∧
    ((inHeader 0 0 0).phase = .hdr ∧ (inHeader 0 0 0).cnt = 0) ∧ (inHeader 1 0xAA 0).cnt = 1 ∧
    ((inHeader 2 0xAB 0).cnt = 2 ∧ (inHeader 2 0xAB 0).hdr[0] ≠ 0xAA) ∧ (inHeader 2 0xAA 0).hdr[0] = 0xAA ∧
    ((0 : Byte) = 0 ∧ (1 : Byte) ≠ 0 ∧ (255 : Byte) ≠ 0) ∧
    ((inPayload 0 2).phase = .payload ∧ (inPayload 0 2).cnt.toNat + 1 < (inPayload 0 2).hdr[2].toNat) ∧
    (inPayload 253 255).cnt.toNat + 1 < (inPayload 253 255).hdr[2].toNat ∧
    (inPayload 0 1).cnt.toNat + 1 = (inPayload 0 1).hdr[2].toNat ∧
    (inPayload 254 255).cnt.toNat + 1 = (inPayload 254 255).hdr[2].toNat := ⟨fun _ _ => ⟨rfl, rfl⟩, by decide⟩

theorem witness_StepRunsTheDecodedOperation :
    State.reset.nextEvent = .tick ∧ (pending (inPayload 0 1) 7).nextEvent = .byte 5 7 [] ∧
    (inPayload 0 1).rxByte 7 = .complete ((inPayload 0 1).storePayload 7) (.viba (.short [7])) ∧
    (inHeader 0 0 0).rxByte 0xAA = .more { inHeader 0 0 0 with hdr := #v[0xAA, 0, 0], cnt := 1 } := by decide

theorem witness_DeliveredFrameRunsItsOperation :
    (Instr.viba (.operands canonical [])).wf = true ∧ Instr.viba (.operands canonical []) ≠ .tick ∧
    (fed 999 (encode (.viba (.operands canonical [])))).dec.phase = .hdr ∧
    (fed 999 (encode (.viba (.operands canonical [])))).dec.cnt = 0 ∧
    (fed 999 (encode (.viba (.operands canonical [])))).rx = sent 999 (encode (.viba (.operands canonical []))) ++ [] ∧
    (sent 999 (encode (.viba (.operands canonical [])))).map Delivery.byte = encode (.viba (.operands canonical [])) ∧
    State.reset.now < State.reset.nextTick ∧
    ∀ d ∈ sent 999 (encode (.viba (.operands canonical []))), d.time < State.reset.nextTick := by decide

theorem witness_PlacedTableWordRunsItsOperation :
    State.reset.now ≤ State.reset.nextTick ∧ decodeTableWord 0 0 = some .tick ∧
    decodeTableWord 24 0xAA6308 = some (.comb (.operands { amp := 0, freq := 0, dur := 0 } { amp := 0, freq := 0, dur := 0 } [])) ∧
    decodeTableWord 24 0xFFFFFF = some (.drop 0xFF 0xFF 0xFF) := by decide

theorem witness_EarlierAgentStepsFirst :
    State.reset.rx = [] ∧ max 0 999 < 1000 ∧ 1000 < max 0 1001 ∧ max 0 1000 = 1000 ∧
    (fed 999 [1]).rx = { time := 999, byte := 1, tickFirst := false } :: [] ∧
    (fed 1000 [1]).rx = { time := 1000, byte := 1, tickFirst := false } :: [] ∧
    (fed 1001 [1]).rx = { time := 1001, byte := 1, tickFirst := false } :: [] ∧
    (State.reset.deliver [{ time := 1000, byte := 1, tickFirst := true }]).rx =
      { time := 1000, byte := 1, tickFirst := true } :: [] := by decide

theorem witness_DecoderDependsOnBytesAlone :
    ∃ t, run 3 (fed 999 [0xAA, 0x76]) = .next t ∧ t.rx = [] ∧ t.dec.cnt = 2 := ⟨_, rfl, rfl, rfl⟩

theorem witness_RecoverySequenceRealignsTheDecoder :
    (inHeader 2 0xAA 0x76).Inv ∧ (inPayload 0 255).Inv ∧ (inPayload 254 255).Inv ∧ 255 ≤ 255 := by
  refine ⟨⟨?_, ?_⟩, ⟨?_, ?_⟩, ⟨?_, ?_⟩, ?_⟩ <;> decide

theorem witness_StarvedDecoderWaitsWhileTicksGoOn :
    State.reset.starved = true ∧ State.starved { State.reset with dec := inPayload 1 4 } = true := by decide

/-- Operands for the valid clauses of the commands, at both ends of their ranges, and for the invalid ones. -/
theorem witness_VibaWritesVibrationA :
    (least.freq ≠ 0 ∧ least.dur ≠ 0) ∧ ({ amp := 9, freq := 0, dur := 0 } : FieldGroup).freq = 0 := by decide

theorem witness_VibbWritesVibrationB :
    (greatest.freq ≠ 0 ∧ greatest.dur ≠ 0) ∧ ({ amp := 9, freq := 1, dur := 0 } : FieldGroup).dur = 0 := by decide

theorem witness_BuzzWritesTheBuzzer :
    (canonical.freq ≠ 0 ∧ canonical.dur ≠ 0) ∧ ({ amp := 9, freq := 0, dur := 7 } : FieldGroup).freq = 0 := by decide

theorem witness_CombWritesBothChannelsOrNeither :
    (least.freq ≠ 0 ∧ least.dur ≠ 0 ∧ greatest.freq ≠ 0 ∧ greatest.dur ≠ 0) ∧
    (canonical.freq = 0 ∨ canonical.dur = 0 ∨ ({ amp := 0, freq := 0, dur := 1 } : FieldGroup).freq = 0 ∨ least.dur = 0) := by decide

theorem witness_DropForgetsTheHeader :
    (pending (inHeader 2 0xAB 0xAA) 0xAA).nextEvent = .byte 5 0xAA [] ∧ (inHeader 2 0xAB 0xAA).phase = .hdr ∧
    (inHeader 2 0xAB 0xAA).cnt = 2 ∧ (inHeader 2 0xAB 0xAA).hdr[0] ≠ 0xAA := by decide

theorem witness_CommandBytesActivateTheirChannels :
    (fed 999 [0xAA, 0x77, 0x05, 0x00, 0x01, 0x00, 0x01, 0x99]).dec.phase = .hdr ∧ State.reset.dec.cnt = 0 ∧
    (fed 999 [0xAA, 0x77, 0x05, 0x00, 0x01, 0x00, 0x01, 0x99]).rx = sent 999 [0xAA, 0x77, 0x05, 0x00, 0x01, 0x00, 0x01, 0x99] ++ [] ∧
    State.reset.now < State.reset.nextTick ∧
    (∀ d ∈ sent 999 [0xAA, 0x77, 0x05, 0x00, 0x01, 0x00, 0x01, 0x99], d.time < State.reset.nextTick) ∧
    ((0x77 : Byte) = 0x77 ∧ ChannelId.VB = .VB) ∧ (0x05 : Byte).toNat = 4 + [(0x99 : Byte)].length ∧ (0x01 : Byte) ≠ 0 ∧
    (0x00 : Byte).toNat + 256 * (0x01 : Byte).toNat ≠ 0 ∧
    (sent 999 [0xAA, 0x77, 0x05, 0x00, 0x01, 0x00, 0x01, 0x99]).map Delivery.byte =
      [0xAA, 0x77, 0x05, 0x00, 0x01, 0x00, 0x01] ++ [0x99] := by decide

theorem witness_CommandBytesActivateTheirChannels_comb :
    (0x08 : Byte).toNat = 8 + ([] : List Byte).length ∧ (255 : Byte) ≠ 0 ∧ (0xFF : Byte).toNat + 256 * (0xFF : Byte).toNat ≠ 0 ∧
    (sent 999 [0xAA, 0x63, 0x08, 0x00, 0xFF, 0xFF, 0xFF, 0x00, 0x01, 0x01, 0x00]).map Delivery.byte =
      [0xAA, 0x63, 0x08, 0x00, 0xFF, 0xFF, 0xFF, 0x00, 0x01, 0x01, 0x00] ++ [] := by decide

theorem witness_ActivateWritesFiveFields : (least.freq ≠ 0 ∧ least.dur ≠ 0) ∧ (greatest.freq ≠ 0 ∧ greatest.dur ≠ 0) := by
  decide

theorem witness_ValidCommandOverwritesTheRecord :
    canonical.freq ≠ 0 ∧ canonical.dur ≠ 0 ∧ greatest.freq ≠ 0 ∧ greatest.dur ≠ 0 := by decide

theorem witness_TickAfterACommitSeesTheNewRecord :
    acceptedFrame (.comb (.operands least greatest [])) = true ∧ least.freq ≠ 0 ∧ least.dur ≠ 0 := by decide

theorem witness_EveryAcceptedFrameAssertsTheTrigger :
    acceptedFrame (.viba (.short [])) = true ∧ acceptedFrame (.vibb (.operands greatest [])) = true ∧
    acceptedFrame (.buzz (.short [])) = true ∧ acceptedFrame (.comb (.short [])) = true ∧ acceptedFrame (.ign 0 []) = true := by
  decide

theorem witness_FramesNeverTouchOutputsOrClearFlags :
    Instr.drop 0 0 0 ≠ .tick ∧ (stateX 0).chVB.active = true ∧ (stateX 0).trig.active = true ∧ (stateX 0).trigLine = true := by decide

theorem witness_ConditionsAreSilent :
    conditionOf (.drop 0 0 0) = some .framing ∧ conditionOf (.ign 0x78 []) = some .unknownSource ∧
    conditionOf (.vibb (.short [1, 2, 3])) = some .shortPayload ∧
    conditionOf (.comb (.operands canonical { amp := 1, freq := 0, dur := 1 } [])) = some .invalidParam := by decide

theorem witness_AfterATickActiveMeansNotExpired :
    ∃ t, exec .tick (stateX 100000) = .next t ∧ (t.ch .VA).active = true ∧ t.now = (t.ch .VA).deadline := ⟨_, rfl, by decide, rfl⟩

theorem witness_BothAlternatingChannelsFollowOneRule :
    ((stateX 99000).chVA.active = true → 2 ≤ (stateX 99000).chVA.period.toNat) ∧
    ((stateX 99000).chBZ.active = true → 2 ≤ (stateX 99000).chBZ.period.toNat) ∧ (stateX 99000).chVA.active = true ∧
    ∃ t, exec .tick (stateX 99000) = .next t := ⟨by decide, by decide, rfl, _, rfl⟩

theorem witness_TickEvolvesEveryChannelAndTheTrigger :
    ((stateX 100001).chVB.active = true ∧ (stateX 100001).chVB.deadline < (stateX 100001).now) ∧
    ¬((stateX 100000).chVB.active = true ∧ (stateX 100000).chVB.deadline < (stateX 100000).now) ∧
    (stateX 100001).trig.deadline < (stateX 100001).now ∧ (stateX 100000).now ≤ (stateX 100000).trig.deadline := by decide

theorem witness_TickIsIdempotentAtOneTime : ∃ t, exec .tick (stateX 101000) = .next t := ⟨_, rfl⟩

theorem witness_DirectionIsParityOfRemainingHalfPeriods :
    (0 ≤ 65535000 ∧ 2 ≤ (3921 : Period).toNat) ∧ (100000 ≤ 100000 ∧ 2 ≤ (2 : Period).toNat) := by decide

theorem witness_DirectionAlternatesByHalfPeriodBucket :
    (266667 ≤ 300000 ∧ 2 ≤ (33333 : Period).toNat) ∧ (5 ≤ 5 ∧ 2 ≤ (1048575 : Period).toNat) := by decide

theorem witness_WrappedDirectionIsUnsignedQuotientParity :
    2 ≤ (2 : Period).toNat ∧ (0 < 2 ^ 64 ∧ 2 ^ 64 - 0 ≤ 2 ^ 64) ∧ 100000 = 100000 := by decide

theorem witness_StoredResultsFitTheirFields :
    (1 : Byte) ≠ 0 ∧ (255 : Byte) ≠ 0 ∧ 18446744073644016615 + 65535000 < 2 ^ 64 := by decide

theorem witness_EveryStepKeepsTheInvariant : State.reset.Inv ∧ ∃ t, step State.reset = .next t := by
  refine ⟨?_, _, rfl⟩
  refine ⟨⟨?_, .inl ?_, ?_⟩, ⟨?_, .inl ?_, ?_⟩, ⟨?_, .inl ?_, ?_⟩, ⟨?_, ?_⟩, ?_, ?_, ?_, ?_, ?_, ?_, ?_⟩ <;> decide

/-- A state after a valid command, reached from reset by steps. -/
theorem witness_EveryReachableStateHasTheInvariant :
    ∃ s, Reachable s ∧ s.chBZ.active = true := by
  have h0 : Reachable State.reset := Reachable.reset (by decide) (by decide)
  have h1 : Reachable (fed 0 [0xAA, 0x62, 0x04, 0x00, 0x01, 0x01, 0x00]) := Reachable.deliver _ h0
  have h2 := Reachable.step h1 rfl
  have h3 := Reachable.step h2 rfl
  have h4 := Reachable.step h3 rfl
  have h5 := Reachable.step h4 rfl
  have h6 := Reachable.step h5 rfl
  have h7 := Reachable.step h6 rfl
  exact ⟨_, Reachable.step h7 rfl, rfl⟩

theorem witness_TimestampsNeverDecrease :
    State.reset.now ≤ State.reset.nextTick ∧ ∃ t, run 2 State.reset = .next t ∧ t.now = 2000 := ⟨by decide, _, rfl, rfl⟩

theorem witness_TicksStayOnTheGrid : ∃ t, run 2 State.reset = .next t ∧ t.nextTick = 3000 := ⟨_, rfl, rfl⟩

theorem witness_RecordsChangeAtomically :
    ∃ t, step (pending (inPayload 0 1) 7) = .next t ∧ t.ch .VA = (pending (inPayload 0 1) 7).ch .VA := ⟨_, rfl, rfl⟩

/-- Two different states that show the same. -/
theorem witness_UnreadStateNeverShowsOnTheOutputs :
    (({ State.reset with chVA := { Channel.reset with amplitude := 9, deadline := 77 } } : State)).visible = State.reset.visible ∧
    ({ State.reset with chVA := { Channel.reset with amplitude := 9, deadline := 77 } } : State) ≠ State.reset := by
  decide

/-- An acceptance at 0 with the next tick at 1000, and one at the instant of the next tick. -/
theorem witness_TriggerPulseLastsFiveToSixMilliseconds :
    (State.reset.accepted.rx = [] ∧ State.reset.accepted.trigLine = true ∧
      State.reset.accepted.trig.deadline = State.reset.accepted.now + 5000 ∧
      State.reset.accepted.now ≤ State.reset.accepted.nextTick ∧ State.reset.accepted.nextTick ≤ State.reset.accepted.now + 1000) ∧
    (State.resetAt 1000 1000).accepted.now = (State.resetAt 1000 1000).accepted.nextTick := by decide

theorem witness_PulseEndsAtTheFirstTickPastItsDeadline :
    (stateX 99000).rx = [] ∧ ((stateX 99000).ch .VA).active = true ∧
    (stateX 99000).nextTick ≤ ((stateX 99000).ch .VA).deadline + 1000 ∧
    ({ stateX 100000 with nextTick := 101000 } : State).nextTick ≤ ((stateX 100000).ch .VB).deadline + 1000 := by decide

end Sys2Proof.Tests
end

/-! PROOFS of family 00_scope: what one step runs, and how the clock and the timer move along a run
(00_scope R13, 20_memory R72, 60_exceptions R168). -/

namespace Sys2Proof.Machine

/-! What one step runs, by its event. -/

/-- 60_exceptions R168: a due tick enters the interrupt and runs `TICK`. -/
theorem step_of_tick {s : State} (h : s.nextEvent = .tick) : step s = exec .tick s.enterTick := by
  rw [step, h]

/-- 40_frame_commands R100: the byte that completes a frame runs the frame's operation in its own step. -/
theorem step_of_complete {s : State} {tm : Nat} {b : Byte} {rest : List Delivery} {d : Decoder} {i : Instr}
    (h : s.nextEvent = .byte tm b rest) (hd : s.dec.rxByte b = .complete d i) :
    step s = exec i { s.takeByte tm rest with dec := d } := by
  rw [step, h]; simp only [hd]

/-- 40_frame_commands R100: a byte inside a frame is taken by the Decoder alone. -/
theorem step_of_more {s : State} {tm : Nat} {b : Byte} {rest : List Delivery} {d : Decoder}
    (h : s.nextEvent = .byte tm b rest) (hd : s.dec.rxByte b = .more d) :
    step s = .next { s.takeByte tm rest with dec := d } := by
  rw [step, h]; simp only [hd]

/-- Settles O10: one rule of `step` for each event. -/
theorem stepRunsTheDecodedOperation : Obligations.StepRunsTheDecodedOperation := fun _ =>
  ⟨step_of_tick, fun _ _ _ hb => ⟨fun _ _ hd => step_of_complete hb hd, fun _ hd => step_of_more hb hd⟩⟩

/-! The clock and the timer. -/

/-- Operations do not move the clock or the timer: `NOW` is the time of their step. -/
theorem exec_clock {i : Instr} {s t : State} (h : exec i s = .next t) : t.now = s.now ∧ t.nextTick = s.nextTick := by
  rcases exec_cases i s with ⟨-, e⟩ | ⟨-, targets, e⟩ | ⟨-, e⟩
  · rw [e] at h; cases h; exact ⟨rfl, rfl⟩
  · rw [e] at h; cases h
    obtain ⟨-, -, -, -, -, -, hnow, hnext, -⟩ := State.commit_frame s targets
    exact ⟨hnow, hnext⟩
  · rw [e] at h; cases h; exact ⟨rfl, rfl⟩

/-- A step is a tick at the time it was due, which sets the timer one period on, or it is a byte, whose time is
neither before the clock nor after the next tick (20_memory R72, 60_exceptions R168). -/
theorem step_clock {s t : State} (h : step s = .next t) :
    (t.now = s.nextTick ∧ t.nextTick = s.nextTick + 1000) ∨
    (s.now ≤ t.now ∧ t.now ≤ s.nextTick ∧ t.nextTick = s.nextTick) := by
  rcases step_cases h with ⟨-, rfl⟩ | ⟨tm, b, rest, hev, hbyte⟩
  · exact .inl ⟨rfl, rfl⟩
  · have ht : t.now = tm ∧ t.nextTick = s.nextTick := by
      rcases hbyte with ⟨d, -, rfl⟩ | ⟨d, i, -, -, hx⟩
      · exact ⟨rfl, rfl⟩
      · exact exec_clock hx
    obtain ⟨d, -, -, hmax, hle⟩ := nextEvent_byte hev
    exact .inr (by omega)

/-- What every step keeps, every run keeps. -/
theorem run_keeps {P : State → Prop} (hstep : ∀ s t, P s → step s = .next t → P t) (k : Nat) {s t : State} (hs : P s)
    (h : run k s = .next t) : P t := by
  induction k generalizing s with
  | zero => cases h; exact hs
  | succ k ih =>
    rw [run] at h
    split at h
    · next u hu => exact ih (hstep s u hs hu) h
    · cases h
    · cases h

/-- The clock is at or after `start` and the next tick is not past. -/
def State.ClockFrom (start : Nat) (s : State) : Prop := start ≤ s.now ∧ s.now ≤ s.nextTick

theorem step_keeps_clockFrom {start : Nat} {s t : State} (hs : s.ClockFrom start) (h : step s = .next t) :
    t.ClockFrom start := by
  obtain ⟨hstart, hahead⟩ := hs
  rcases step_clock h with ⟨hnow, hnext⟩ | ⟨hle, hnow, hnext⟩
  · constructor <;> omega
  · constructor <;> omega

/-- Settles O44: every step keeps the clock at or after the time of the first state and the timer ahead of it. -/
theorem timestampsNeverDecrease : Obligations.TimestampsNeverDecrease := fun k s _ hs h =>
  run_keeps (P := State.ClockFrom s.now) (fun _ _ => step_keeps_clockFrom) k ⟨Nat.le_refl _, hs⟩ h

end Sys2Proof.Machine

/-! PROOFS of family 10_state: reset, the flags after a tick, the invariant of the reachable states, and the part
of the state that no output depends on (10_state R27, R29 to R32, R36, R40, R43). -/

namespace Sys2Proof.Machine

/-! Reset. -/

/-- Settles O39: `State.resetAt` writes every element out. -/
theorem resetMakesEverythingInert : Obligations.ResetMakesEverythingInert := fun _ _ =>
  ⟨fun c => by cases c <;> rfl, rfl, rfl, rfl, rfl, rfl, rfl⟩

/-! The flags and the outputs after a tick. -/

theorem exec_tick (s : State) : exec .tick s = .next (s.tickPass .floorInt) := rfl

theorem tickedChannel_of_le {now : Nat} {r : Channel} (h : now ≤ r.deadline) : tickedChannel now r = r := by
  simp [tickedChannel, Nat.not_lt.mpr h]

/-- 10_state R27 b, for one record. -/
theorem tickedChannel_not_expired {now : Nat} {r : Channel} (h : (tickedChannel now r).active = true) :
    now ≤ (tickedChannel now r).deadline := by
  rcases tickedChannel_cases now r with ⟨-, -, e⟩ | ⟨hidle | hle, e⟩
  · rw [e] at h; cases h
  · rw [e, hidle] at h; cases h
  · rw [e]; exact hle

/-- Settles O31: the tick has turned off every record whose deadline was past. -/
theorem afterATickActiveMeansNotExpired : Obligations.AfterATickActiveMeansNotExpired := by
  intro s t h c hc
  rw [exec_tick] at h
  cases h
  rw [State.tickPass_ch] at hc ⊢
  exact tickedChannel_not_expired hc

@[simp] theorem tickedChannel_idem (now : Nat) (r : Channel) :
    tickedChannel now (tickedChannel now r) = tickedChannel now r := by
  rcases tickedChannel_cases now r with ⟨-, -, e⟩ | ⟨-, e⟩
  · rw [e]; rfl
  · rw [e, e]

/-- After a turn-off the record is idle, after an emission it is unchanged: the same output is written again. -/
@[simp] theorem tickedOutput_idem (arith : ElapsedArith) (c : ChannelId) (now : Nat) (r : Channel) (o : AltOutput) :
    tickedOutput arith c now (tickedChannel now r) (tickedOutput arith c now r o) = tickedOutput arith c now r o := by
  rcases tickedChannel_cases now r with ⟨-, -, e⟩ | ⟨hkept, e⟩
  · rw [e]; rfl
  · rw [e]
    rcases tickedOutput_cases arith c now r o with ⟨hactive, hpast, -⟩ | ⟨hactive, hle, eo⟩ | ⟨-, eo⟩
    · rcases hkept with hidle | hle
      · rw [hidle] at hactive; cases hactive
      · omega
    · rw [eo]; simp [tickedOutput, hactive, hle]
    · rw [eo, eo]

@[simp] theorem tickedLevelVB_idem (now : Nat) (r : Channel) (level : Level) :
    tickedLevelVB now (tickedChannel now r) (tickedLevelVB now r level) = tickedLevelVB now r level := by
  rcases tickedChannel_cases now r with ⟨-, -, e⟩ | ⟨-, e⟩
  · rw [e]; rfl
  · rw [e]; unfold tickedLevelVB; split <;> rfl

@[simp] theorem tickedTrigger_idem (now : Nat) (t : Trigger) :
    tickedTrigger now (tickedTrigger now t) = tickedTrigger now t := by
  by_cases h : t.deadline < now <;> simp [tickedTrigger, h]

@[simp] theorem tickedLine_idem (now : Nat) (t : Trigger) (line : Bool) :
    tickedLine now (tickedTrigger now t) (tickedLine now t line) = tickedLine now t line := by
  by_cases h : t.deadline < now <;> simp [tickedTrigger, tickedLine, h]

theorem State.tickPass_idem (arith : ElapsedArith) (s : State) :
    (s.tickPass arith).tickPass arith = s.tickPass arith := by
  simp only [State.tickPass, tickedChannel_idem, tickedOutput_idem, tickedLevelVB_idem, tickedTrigger_idem,
    tickedLine_idem]

/-- Settles O33: every part of a scheduler pass is idempotent. -/
theorem tickIsIdempotentAtOneTime : Obligations.TickIsIdempotentAtOneTime := by
  intro s t h
  rw [exec_tick] at h
  cases h
  rw [exec_tick, State.tickPass_idem]

/-! The invariant of a Channel record (10_state R27 a, f). -/

theorem Channel.reset_inv (now : Nat) : Channel.reset.Inv now :=
  ⟨nofun, .inl ⟨rfl, rfl, rfl, rfl⟩, Nat.zero_le _⟩

theorem Channel.Inv.mono {r : Channel} {now later : Nat} (h : r.Inv now) (hle : now ≤ later) : r.Inv later :=
  ⟨h.period, h.history, h.started.trans hle⟩

/-- A valid activation stores a period of 3921 to 1000000 and a deadline of 1 to 65535 milliseconds (41_pulse_scheduler
R142). -/
theorem activatedChannel_inv {g : FieldGroup} (h : groupValid g = true) (now : Nat) : (activatedChannel g now).Inv now := by
  obtain ⟨hfreq, hdur⟩ := (groupValid_iff g).mp h
  refine ⟨fun _ => ?_, .inr ⟨g.dur.toNat, ?_, ?_, rfl⟩, Nat.le_refl _⟩
  · have hpos := byte_pos_of_ne_zero hfreq
    have hmax := g.freq.isLt
    rw [(activatedChannel_spec g now).period]
    exact ⟨(Nat.le_div_iff_mul_le hpos).mpr (by omega), Nat.div_le_self _ _⟩
  · exact Nat.one_le_iff_ne_zero.mpr fun e => hdur (BitVec.eq_of_toNat_eq (by simpa using e))
  · have := g.dur.isLt; omega

/-- A tick at any time clears at most the flag. -/
theorem Channel.Inv.ticked {r : Channel} {now : Nat} (h : r.Inv now) (tickTime : Nat) : (tickedChannel tickTime r).Inv now := by
  rcases tickedChannel_cases tickTime r with ⟨-, -, e⟩ | ⟨-, e⟩
  · rw [e]; exact ⟨nofun, h.history, h.started⟩
  · rw [e]; exact h

/-- 10_state R27 d: the tick that clears the flag writes level 0, and an idle channel keeps its level. -/
theorem tickedOutput_level_of_idle {arith : ElapsedArith} {c : ChannelId} {now : Nat} {r : Channel} {o : AltOutput}
    (h : r.active = false → o.level = 0) (hidle : (tickedChannel now r).active = false) :
    (tickedOutput arith c now r o).level = 0 := by
  rcases tickedOutput_cases arith c now r o with ⟨-, -, e⟩ | ⟨hactive, hle, -⟩ | ⟨hinactive, e⟩
  · rw [e]
  · rw [tickedChannel_of_le hle, hactive] at hidle; cases hidle
  · rw [e]; exact h hinactive

/-- 10_state R36: a tick writes level 0 or four times an amplitude. -/
theorem tickedOutput_level_step {arith : ElapsedArith} {c : ChannelId} {now : Nat} {r : Channel} {o : AltOutput}
    (h : o.level.toNat % 4 = 0) : (tickedOutput arith c now r o).level.toNat % 4 = 0 := by
  rcases tickedOutput_cases arith c now r o with ⟨-, -, e⟩ | ⟨-, -, e⟩ | ⟨-, e⟩
  · rw [e]; rfl
  · rw [e]; simp only [levelOf_toNat]; omega
  · rw [e]; exact h

/-! The Decoder's byte step, row by row (40_frame_commands R118), and its invariant (10_state R30). -/

theorem Decoder.storeHeader_getElem (d : Decoder) (b : Byte) {i : Nat} (hi : i < 3) :
    (d.storeHeader b).hdr[i] = if i = min d.cnt.toNat 2 then b else d.hdr[i] := by
  have hzero : d.cnt = 0 ↔ d.cnt.toNat = 0 := BitVec.toNat_inj.symm
  have hone : d.cnt = 1 ↔ d.cnt.toNat = 1 := BitVec.toNat_inj.symm
  simp only [Decoder.storeHeader, hzero, hone]
  split
  · simp_all [Vector.getElem_set, eq_comm]
  · split
    · simp_all [Vector.getElem_set, eq_comm]
    · rw [show min d.cnt.toNat 2 = 2 by omega, Vector.getElem_set]; simp only [eq_comm]

/-- A byte in the header phase, as 40_frame_commands R100 words it. -/
theorem Decoder.rxByte_hdr {d : Decoder} (hp : d.phase = .hdr) (b : Byte) :
    d.rxByte b =
      if d.cnt.toNat < 2 then .more { d.storeHeader b with cnt := d.cnt + 1 }
      else if (d.storeHeader b).hdr[0] ≠ 0xAA then
        .complete (d.storeHeader b) (.drop (d.storeHeader b).hdr[0] (d.storeHeader b).hdr[1] (d.storeHeader b).hdr[2])
      else if b = 0 then .complete (d.storeHeader b) (decodeFrame (d.storeHeader b).hdr[1] [])
      else .more { d.storeHeader b with phase := .payload, cnt := 0 } := by
  rw [Decoder.rxByte, hp]; rfl

/-- A byte in the payload phase, as 40_frame_commands R100 words it. -/
theorem Decoder.rxByte_payload {d : Decoder} (hp : d.phase = .payload) (b : Byte) :
    d.rxByte b =
      if d.cnt.toNat + 1 < d.hdr[2].toNat then .more { d.storePayload b with cnt := d.cnt + 1 }
      else .complete (d.storePayload b) (decodeFrame d.hdr[1] (d.storePayload b).payload) := by
  rw [Decoder.rxByte, hp]; rfl

theorem Decoder.endFrame_inv (d : Decoder) : d.endFrame.Inv := ⟨fun _ => Nat.zero_le _, nofun⟩

theorem Decoder.Inv.storeHeader {d : Decoder} (h : d.Inv) (hp : d.phase = .hdr) (b : Byte) : (d.storeHeader b).Inv :=
  ⟨h.header, fun e => by rw [Decoder.storeHeader_phase, hp] at e; cases e⟩

theorem Decoder.Inv.storePayload {d : Decoder} (h : d.Inv) (b : Byte) : (d.storePayload b).Inv := ⟨h.header, h.payload⟩

/-- The Decoder that a byte leaves, its registers filled, before a completed frame's meaning ends the frame. -/
def ByteEffect.decoder : ByteEffect → Decoder
  | .more d => d
  | .complete d _ => d

theorem Decoder.Inv.rxByte {d : Decoder} (h : d.Inv) (b : Byte) : (d.rxByte b).decoder.Inv := by
  cases hp : d.phase with
  | hdr =>
    have hcnt := h.header hp
    rw [Decoder.rxByte_hdr hp]
    split
    · exact ⟨fun _ => by simp [ByteEffect.decoder]; omega, fun e => by simp [ByteEffect.decoder, hp] at e⟩
    · split
      · exact h.storeHeader hp b
      · next hmarker =>
        split
        · exact h.storeHeader hp b
        · next hlen =>
          refine ⟨nofun, fun _ => ⟨?_, not_not.mp hmarker⟩⟩
          have hthird : (d.storeHeader b).hdr[2] = b := by
            rw [Decoder.storeHeader_getElem, if_pos (by omega)]
          exact hthird.symm ▸ byte_pos_of_ne_zero hlen
  | payload =>
    obtain ⟨hcnt, hmarker⟩ := h.payload hp
    rw [Decoder.rxByte_payload hp]
    split
    · next hlt =>
      have := d.hdr[2].isLt
      refine ⟨fun e => by simp [ByteEffect.decoder, hp] at e, fun _ => ⟨?_, hmarker⟩⟩
      simp [ByteEffect.decoder]; omega
    · exact h.storePayload b

/-! The invariant of the reachable states. -/

theorem State.Inv.ch {s : State} (h : s.Inv) (c : ChannelId) : (s.ch c).Inv s.now := by
  cases c
  · exact h.va
  · exact h.vb
  · exact h.bz

/-- 10_state R43: reset at any parameters that 00_scope R8 admits. -/
theorem State.resetAt_inv {tReset tickT0 : Nat} (hlt : tReset < tickT0) (hle : tickT0 ≤ tReset + 1000) :
    (State.resetAt tReset tickT0).Inv where
  va := Channel.reset_inv _
  vb := Channel.reset_inv _
  bz := Channel.reset_inv _
  dec := ⟨fun _ => Nat.zero_le _, nofun⟩
  idleVA _ := rfl
  idleBZ _ := rfl
  levelVB := rfl
  stepVA := rfl
  stepBZ := rfl
  trig := rfl
  tickAhead := ⟨Nat.le_of_lt hlt, hle⟩

/-- The stream is not part of the invariant. -/
theorem State.Inv.deliver {s : State} (h : s.Inv) (ds : List Delivery) : (s.deliver ds).Inv :=
  ⟨h.va, h.vb, h.bz, h.dec, h.idleVA, h.idleBZ, h.levelVB, h.stepVA, h.stepBZ, h.trig, h.tickAhead⟩

/-- A byte is taken between now and the next tick, and the Decoder stores it. -/
theorem State.Inv.takeByte {s : State} (h : s.Inv) {tm : Nat} (hnow : s.now ≤ tm) (hnext : tm ≤ s.nextTick)
    (rest : List Delivery) {d : Decoder} (hd : d.Inv) : State.Inv { s.takeByte tm rest with dec := d } where
  va := h.va.mono hnow
  vb := h.vb.mono hnow
  bz := h.bz.mono hnow
  dec := hd
  idleVA := h.idleVA
  idleBZ := h.idleBZ
  levelVB := h.levelVB
  stepVA := h.stepVA
  stepBZ := h.stepBZ
  trig := h.trig
  tickAhead := ⟨hnext, h.tickAhead.2.trans (Nat.add_le_add_right hnow _)⟩

theorem State.Inv.enterTick {s : State} (h : s.Inv) : s.enterTick.Inv where
  va := h.va.mono h.tickAhead.1
  vb := h.vb.mono h.tickAhead.1
  bz := h.bz.mono h.tickAhead.1
  dec := h.dec
  idleVA := h.idleVA
  idleBZ := h.idleBZ
  levelVB := h.levelVB
  stepVA := h.stepVA
  stepBZ := h.stepBZ
  trig := h.trig
  tickAhead := ⟨Nat.le_add_right _ _, Nat.le_refl _⟩

theorem State.Inv.endFrame {s : State} (h : s.Inv) : s.endFrame.Inv :=
  ⟨h.va, h.vb, h.bz, s.dec.endFrame_inv, h.idleVA, h.idleBZ, h.levelVB, h.stepVA, h.stepBZ, h.trig, h.tickAhead⟩

theorem State.Inv.tickPass {s : State} (h : s.Inv) (arith : ElapsedArith) : (s.tickPass arith).Inv where
  va := h.va.ticked _
  vb := h.vb.ticked _
  bz := h.bz.ticked _
  dec := h.dec
  idleVA := tickedOutput_level_of_idle h.idleVA
  idleBZ := tickedOutput_level_of_idle h.idleBZ
  levelVB := by
    rw [State.tickPass_outVB, h.levelVB]
    rcases tickedLevelVB_cases s.now s.chVB 0 with ⟨-, -, e⟩ | ⟨-, e⟩ <;> exact e
  stepVA := tickedOutput_level_step h.stepVA
  stepBZ := tickedOutput_level_step h.stepBZ
  trig := by
    rw [State.tickPass_trig, State.tickPass_trigLine]
    rcases tickedTrigger_cases s.now s.trig s.trigLine with ⟨-, er, el⟩ | ⟨-, er, el⟩
    · rw [er, el]
    · rw [er, el]; exact h.trig
  tickAhead := h.tickAhead

/-- A record after a commit is as before or freshly activated. -/
theorem State.Inv.commit_ch {s : State} (h : s.Inv) (targets : List (ChannelId × FieldGroup)) (c : ChannelId) :
    ((s.commit targets).ch c).Inv s.now := by
  rcases State.commit_ch s targets c with e | ⟨g, -, hg, e⟩
  · rw [e]; exact h.ch c
  · rw [e]; exact activatedChannel_inv hg s.now

/-- 40_frame_commands R106: a commit clears no flag. -/
theorem State.idle_of_commit_idle {s : State} {targets : List (ChannelId × FieldGroup)} {c : ChannelId}
    (hidle : ((s.commit targets).ch c).active = false) : (s.ch c).active = false := by
  rcases State.commit_ch s targets c with e | ⟨g, -, -, e⟩
  · rwa [e] at hidle
  · rw [e] at hidle; cases hidle

theorem State.Inv.commit {s : State} (h : s.Inv) (targets : List (ChannelId × FieldGroup)) : (s.commit targets).Inv := by
  obtain ⟨htrig, hline, hdec, hva, hbz, hvb, hnow, hnext, -⟩ := State.commit_frame s targets
  exact {
    va := hnow ▸ h.commit_ch targets .VA
    vb := hnow ▸ h.commit_ch targets .VB
    bz := hnow ▸ h.commit_ch targets .BZ
    dec := hdec ▸ s.dec.endFrame_inv
    idleVA := fun hidle => hva ▸ h.idleVA (State.idle_of_commit_idle (c := .VA) hidle)
    idleBZ := fun hidle => hbz ▸ h.idleBZ (State.idle_of_commit_idle (c := .BZ) hidle)
    levelVB := hvb ▸ h.levelVB
    stepVA := hva ▸ h.stepVA
    stepBZ := hbz ▸ h.stepBZ
    trig := by rw [htrig, hline]
    tickAhead := by rw [hnow, hnext]; exact h.tickAhead }

theorem State.Inv.exec {i : Instr} {s t : State} (hs : s.Inv) (h : exec i s = .next t) : t.Inv := by
  rcases exec_cases i s with ⟨-, e⟩ | ⟨-, targets, e⟩ | ⟨-, e⟩
  · rw [e] at h; cases h; exact hs.tickPass _
  · rw [e] at h; cases h; exact hs.commit targets
  · rw [e] at h; cases h; exact hs.endFrame

/-- Settles O41: a step is a tick, a byte inside a frame, or a byte with the operation it completes. -/
theorem everyStepKeepsTheInvariant : Obligations.EveryStepKeepsTheInvariant := by
  intro s t hs h
  rcases step_cases h with ⟨-, rfl⟩ | ⟨tm, b, rest, hev, hbyte⟩
  · exact hs.enterTick.tickPass _
  · obtain ⟨x, -, -, hmax, hnext⟩ := nextEvent_byte hev
    have hnow : s.now ≤ tm := hmax ▸ Nat.le_max_left _ _
    have hdec := hs.dec.rxByte b
    rcases hbyte with ⟨d, hd, rfl⟩ | ⟨d, i, hd, -, hx⟩
    · rw [hd] at hdec; exact hs.takeByte hnow hnext rest hdec
    · rw [hd] at hdec; exact (hs.takeByte hnow hnext rest hdec).exec hx

/-- Settles O40: the model's choice of `T_RESET` and `TICK_T0` (log 2) is admitted by 00_scope R8. -/
theorem invariantHoldsAfterReset : Obligations.InvariantHoldsAfterReset :=
  State.resetAt_inv (by decide) (by decide)

theorem Reachable.inv {s : State} (h : Reachable s) : s.Inv := by
  induction h with
  | reset hlt hle => exact State.resetAt_inv hlt hle
  | deliver ds _ ih => exact ih.deliver ds
  | step _ hstep ih => exact everyStepKeepsTheInvariant _ _ ih hstep

/-- 41_pulse_scheduler R148: half-period 0 does not arise. -/
theorem Channel.Inv.halfPeriod_pos {r : Channel} {now : Nat} (h : r.Inv now) (hactive : r.active = true) :
    0 < halfPeriod r.period := by
  obtain ⟨hmin, -⟩ := h.period hactive
  exact Nat.div_pos (by omega) (by decide)

/-- Settles O42: the invariant holds at reset, and deliveries and steps keep it. -/
theorem everyReachableStateHasTheInvariant : Obligations.EveryReachableStateHasTheInvariant := fun _ h =>
  ⟨h.inv, h.inv.levelVB, h.inv.va.halfPeriod_pos, h.inv.bz.halfPeriod_pos⟩

/-! What is read of a record: idle records, start times, and Vibration-B's amplitude and period are not (10_state R22,
R23, R26, R43). -/

theorem tickedChannel_visible (now : Nat) (r : Channel) :
    (tickedChannel now r.visible).visible = (tickedChannel now r).visible := by
  cases h : r.active
  · simp [Channel.visible, Channel.reset, tickedChannel, h]
  · by_cases h' : r.deadline < now <;> simp [Channel.visible, tickedChannel, turnedOff, h, h']

theorem tickedChannel_visibleVB (now : Nat) (r : Channel) :
    (tickedChannel now r.visibleVB).visibleVB = (tickedChannel now r).visibleVB := by
  cases h : r.active
  · simp [Channel.visibleVB, Channel.reset, tickedChannel, h]
  · by_cases h' : r.deadline < now <;> simp [Channel.visibleVB, tickedChannel, turnedOff, h, h']

theorem tickedOutput_visible (arith : ElapsedArith) (c : ChannelId) (now : Nat) (r : Channel) (o : AltOutput) :
    tickedOutput arith c now r.visible o = tickedOutput arith c now r o := by
  cases h : r.active
  · simp [Channel.visible, Channel.reset, tickedOutput, h]
  · simp [Channel.visible, tickedOutput, h]

theorem tickedLevelVB_visible (now : Nat) (r : Channel) (level : Level) :
    tickedLevelVB now r.visibleVB level = tickedLevelVB now r level := by
  cases h : r.active
  · simp [Channel.visibleVB, Channel.reset, tickedLevelVB, h]
  · simp [Channel.visibleVB, tickedLevelVB, h]

/-! What is read of the trigger: its deadline while the line is high (10_state R29, R43). -/

/-- The Trigger record as `State.visible` shows it beside the line. -/
def Trigger.visible (t : Trigger) (line : Bool) : Trigger := { deadline := if line then t.deadline else 0, active := false }

theorem tickedLine_visible (now : Nat) (t : Trigger) (line : Bool) :
    tickedLine now (t.visible line) line = tickedLine now t line := by
  cases line
  · simp [tickedLine]
  · rfl

theorem tickedTrigger_visible (now : Nat) (t : Trigger) (line : Bool) :
    (tickedTrigger now (t.visible line)).visible (tickedLine now t line) =
      (tickedTrigger now t).visible (tickedLine now t line) := by
  rcases tickedTrigger_cases now t line with ⟨-, -, el⟩ | ⟨hle, er, el⟩
  · rw [el]; rfl
  · cases line
    · rw [el]; rfl
    · rw [el, er]; simp [Trigger.visible, tickedTrigger, Nat.not_lt.mpr hle]

/-! What is read of the Decoder: the registers filled in the current frame (10_state R31, R32). -/

theorem Decoder.visible_eq_iff {d e : Decoder} :
    d.visible = e.visible ↔ d.phase = e.phase ∧ d.cnt = e.cnt ∧
      (∀ i (_ : i < 3), d.phase = .payload ∨ i < d.cnt.toNat → d.hdr[i] = e.hdr[i]) ∧
      (∀ i (_ : i < 8), d.phase = .payload → i < d.cnt.toNat → d.pl[i] = e.pl[i]) := by
  simp only [Decoder.visible, Decoder.mk.injEq]
  constructor
  · rintro ⟨hphase, hcnt, hhdr, hpl⟩
    refine ⟨hphase, hcnt, fun i hi hread => ?_, fun i hi hp hread => ?_⟩
    · have := congrArg (·[i]) hhdr
      simpa [← hphase, ← hcnt, hread] using this
    · have := congrArg (·[i]) hpl
      simpa [← hphase, ← hcnt, hp, hread] using this
  · rintro ⟨hphase, hcnt, hhdr, hpl⟩
    refine ⟨hphase, hcnt, Vector.ext fun i hi => ?_, Vector.ext fun i hi => ?_⟩
    · simp only [Vector.getElem_ofFn, ← hphase, ← hcnt]
      split
      · next hread => exact hhdr i hi hread
      · rfl
    · simp only [Vector.getElem_ofFn, ← hphase, ← hcnt]
      split
      · next hread => exact hpl i hi hread.1 hread.2
      · rfl

/-- At a frame boundary every register is stale. -/
theorem Decoder.endFrame_visible_congr (d e : Decoder) : d.endFrame.visible = e.endFrame.visible :=
  Decoder.visible_eq_iff.mpr ⟨rfl, rfl, fun _ _ h => h.elim nofun (absurd · (Nat.not_lt_zero _)), fun _ _ => nofun⟩

/-- A header byte fills the register its count selects; the ones before it are read. -/
theorem Decoder.storeHeader_getElem_congr {d e : Decoder} (h : d.visible = e.visible) (b : Byte) {i : Nat} (hi : i < 3)
    (hread : i ≤ d.cnt.toNat) : (d.storeHeader b).hdr[i] = (e.storeHeader b).hdr[i] := by
  obtain ⟨-, hcnt, hhdr, -⟩ := Decoder.visible_eq_iff.mp h
  rw [Decoder.storeHeader_getElem, Decoder.storeHeader_getElem, ← hcnt]
  split
  · rfl
  · exact hhdr i hi (.inr (by omega))

/-- A payload byte fills the register its count selects, where there is one. -/
theorem Decoder.storePayload_getElem_congr {d e : Decoder} (h : d.visible = e.visible) (hp : d.phase = .payload) (b : Byte)
    {i : Nat} (hi : i < 8) (hread : i ≤ d.cnt.toNat) : (d.storePayload b).pl[i] = (e.storePayload b).pl[i] := by
  obtain ⟨-, hcnt, -, hpl⟩ := Decoder.visible_eq_iff.mp h
  simp only [Decoder.storePayload_pl, Vector.getElem_setIfInBounds, ← hcnt]
  split
  · rfl
  · exact hpl i hi hp (by omega)

/-- The payload of a frame that its last byte completes is in the registers filled. -/
theorem Decoder.payload_congr {d e : Decoder} (hhdr : d.hdr[2] = e.hdr[2])
    (hpl : ∀ i (_ : i < 8), i < d.hdr[2].toNat → d.pl[i] = e.pl[i]) : d.payload = e.payload := by
  refine List.ext_getElem (by simp [Decoder.payload, hhdr]) fun i hi _ => ?_
  simp only [Decoder.payload, List.length_take, Vector.length_toList, lt_min_iff] at hi
  simpa [Decoder.payload] using hpl i hi.2 hi.1

/-- The effect of a byte less the stale registers. -/
def ByteEffect.visible : ByteEffect → ByteEffect
  | .more d => .more d.visible
  | .complete d i => .complete d.visible i

/-- A byte makes the same of two Decoders that differ in stale registers only. -/
theorem Decoder.rxByte_visible_congr {d e : Decoder} (h : d.visible = e.visible) (b : Byte) :
    (d.rxByte b).visible = (e.rxByte b).visible := by
  obtain ⟨hphase, hcnt, hhdr, hpl⟩ := Decoder.visible_eq_iff.mp h
  cases hp : d.phase with
  | hdr =>
    have hstored := fun i => Decoder.storeHeader_getElem_congr h b (i := i)
    rw [Decoder.rxByte_hdr hp, Decoder.rxByte_hdr (hphase ▸ hp), ← hcnt]
    by_cases hc : d.cnt.toNat < 2
    · rw [if_pos hc, if_pos hc]
      refine congrArg ByteEffect.more (Decoder.visible_eq_iff.mpr ⟨hphase, rfl, fun i hi hread => ?_, fun _ _ e => ?_⟩)
      · refine hstored i hi ?_
        simp [hp] at hread; omega
      · rw [Decoder.storeHeader_phase, hp] at e; cases e
    · have hall : (d.storeHeader b).hdr = (e.storeHeader b).hdr := Vector.ext fun i hi => hstored i hi (by omega)
      have hvis : (d.storeHeader b).visible = (e.storeHeader b).visible :=
        Decoder.visible_eq_iff.mpr ⟨hphase, hcnt, fun i hi _ => by rw [hall], fun i hi => hpl i hi⟩
      rw [if_neg hc, if_neg hc, ← hall]
      split
      · exact congrArg (ByteEffect.complete · _) hvis
      · split
        · exact congrArg (ByteEffect.complete · _) hvis
        · exact congrArg ByteEffect.more
            (Decoder.visible_eq_iff.mpr ⟨rfl, rfl, fun i hi _ => by rw [hall], fun _ _ _ => nofun⟩)
  | payload =>
    have hregs : ∀ i (_ : i < 3), d.hdr[i] = e.hdr[i] := fun i hi => hhdr i hi (.inl hp)
    have hstored := fun i => Decoder.storePayload_getElem_congr h hp b (i := i)
    rw [Decoder.rxByte_payload hp, Decoder.rxByte_payload (hphase ▸ hp), ← hcnt, ← hregs 1, ← hregs 2]
    split
    · have := d.hdr[2].isLt
      refine congrArg ByteEffect.more
        (Decoder.visible_eq_iff.mpr ⟨hphase, rfl, fun i hi _ => hregs i hi, fun i hi _ hread => hstored i hi ?_⟩)
      simp at hread; omega
    · have hpayload : (d.storePayload b).payload = (e.storePayload b).payload :=
        Decoder.payload_congr (hregs 2 (by decide)) fun i hi hlen =>
          hstored i hi (by rw [Decoder.storePayload_hdr] at hlen; omega)
      rw [hpayload]
      exact congrArg (ByteEffect.complete · _)
        (Decoder.visible_eq_iff.mpr ⟨hphase, hcnt, fun i hi _ => hregs i hi, fun i hi _ hread => hstored i hi hread.le⟩)

/-! What is read of the state, and the steps of two states in which it is the same. -/

/-- Two states with the same visible part, element by element. -/
theorem State.visible_eq_iff {s t : State} :
    s.visible = t.visible ↔
      (s.chVA.visible = t.chVA.visible ∧ s.chVB.visibleVB = t.chVB.visibleVB ∧ s.chBZ.visible = t.chBZ.visible) ∧
      s.trig.visible s.trigLine = t.trig.visible t.trigLine ∧ s.dec.visible = t.dec.visible ∧ s.outputs = t.outputs ∧
      s.now = t.now ∧ s.nextTick = t.nextTick ∧ s.rx = t.rx := by
  simp only [State.visible, State.mk.injEq, State.outputs, Outputs.mk.injEq, Trigger.visible]
  tauto

theorem State.enterTick_visible_congr {s t : State} (h : s.visible = t.visible) :
    s.enterTick.visible = t.enterTick.visible := by
  obtain ⟨hch, htrig, hdec, hout, -, hnext, hrx⟩ := State.visible_eq_iff.mp h
  exact State.visible_eq_iff.mpr ⟨hch, htrig, hdec, hout, hnext, congrArg (· + 1000) hnext, hrx⟩

theorem State.takeByte_visible_congr {s t : State} (h : s.visible = t.visible) (tm : Nat) (rest : List Delivery)
    {d e : Decoder} (hde : d.visible = e.visible) :
    State.visible { s.takeByte tm rest with dec := d } = State.visible { t.takeByte tm rest with dec := e } := by
  obtain ⟨hch, htrig, -, hout, -, hnext, -⟩ := State.visible_eq_iff.mp h
  exact State.visible_eq_iff.mpr ⟨hch, htrig, hde, hout, rfl, hnext, rfl⟩

theorem State.endFrame_visible_congr {s t : State} (h : s.visible = t.visible) :
    s.endFrame.visible = t.endFrame.visible := by
  obtain ⟨hch, htrig, -, hout, hnow, hnext, hrx⟩ := State.visible_eq_iff.mp h
  exact State.visible_eq_iff.mpr ⟨hch, htrig, Decoder.endFrame_visible_congr _ _, hout, hnow, hnext, hrx⟩

theorem State.assertTrigger_visible_congr {s t : State} (h : s.visible = t.visible) :
    s.assertTrigger.visible = t.assertTrigger.visible := by
  obtain ⟨hch, -, hdec, hout, hnow, hnext, hrx⟩ := State.visible_eq_iff.mp h
  simp only [State.outputs, Outputs.mk.injEq] at hout
  obtain ⟨hva, hbz, hvb, -⟩ := hout
  refine State.visible_eq_iff.mpr ⟨hch, ?_, hdec, ?_, hnow, hnext, hrx⟩
  · simp only [State.assertTrigger_trig, State.assertTrigger_trigLine, hnow]
  · simp only [State.outputs, State.assertTrigger_outVA, State.assertTrigger_outBZ, State.assertTrigger_outVB,
      State.assertTrigger_trigLine, hva, hbz, hvb]

/-- An activation reads no field of the record it writes. -/
theorem State.activate_visible_congr {s t : State} (h : s.visible = t.visible) (c : ChannelId) (g : FieldGroup) :
    (s.activate c g).visible = (t.activate c g).visible := by
  obtain ⟨⟨hva, hvb, hbz⟩, htrig, hdec, hout, hnow, hnext, hrx⟩ := State.visible_eq_iff.mp h
  have hwritten : activatedChannel g s.now = activatedChannel g t.now := by rw [hnow]
  apply State.visible_eq_iff.mpr
  cases c with
  | VA => exact ⟨⟨congrArg Channel.visible hwritten, hvb, hbz⟩, htrig, hdec, hout, hnow, hnext, hrx⟩
  | VB => exact ⟨⟨hva, congrArg Channel.visibleVB hwritten, hbz⟩, htrig, hdec, hout, hnow, hnext, hrx⟩
  | BZ => exact ⟨⟨hva, hvb, congrArg Channel.visible hwritten⟩, htrig, hdec, hout, hnow, hnext, hrx⟩

theorem State.activateAll_visible_congr (targets : List (ChannelId × FieldGroup)) {s t : State}
    (h : s.visible = t.visible) : (s.activateAll targets).visible = (t.activateAll targets).visible := by
  induction targets generalizing s t with
  | nil => exact h
  | cons x rest ih => obtain ⟨c, g⟩ := x; exact ih (State.activate_visible_congr h c g)

theorem State.commit_visible_congr {s t : State} (h : s.visible = t.visible) (targets : List (ChannelId × FieldGroup)) :
    (s.commit targets).visible = (t.commit targets).visible := by
  refine State.endFrame_visible_congr (State.assertTrigger_visible_congr ?_)
  split
  · exact State.activateAll_visible_congr targets h
  · exact h

/-- A scheduler pass reads no idle record, no ghost and no deadline of a low trigger line. -/
theorem State.tickPass_visible_congr {s t : State} (h : s.visible = t.visible) (arith : ElapsedArith) :
    (s.tickPass arith).visible = (t.tickPass arith).visible := by
  obtain ⟨⟨hva, hvb, hbz⟩, htrig, hdec, hout, hnow, hnext, hrx⟩ := State.visible_eq_iff.mp h
  simp only [State.outputs, Outputs.mk.injEq] at hout
  obtain ⟨houtVA, houtBZ, houtVB, hline⟩ := hout
  have hlines : tickedLine s.now s.trig s.trigLine = tickedLine t.now t.trig t.trigLine := by
    rw [← tickedLine_visible, htrig, hnow, hline, tickedLine_visible]
  refine State.visible_eq_iff.mpr ⟨⟨?_, ?_, ?_⟩, ?_, hdec, ?_, hnow, hnext, hrx⟩
  · simp only [State.tickPass_chVA]; rw [← tickedChannel_visible, hva, hnow, tickedChannel_visible]
  · simp only [State.tickPass_chVB]; rw [← tickedChannel_visibleVB, hvb, hnow, tickedChannel_visibleVB]
  · simp only [State.tickPass_chBZ]; rw [← tickedChannel_visible, hbz, hnow, tickedChannel_visible]
  · simp only [State.tickPass_trig, State.tickPass_trigLine]
    rw [← tickedTrigger_visible, hlines, htrig, hnow, tickedTrigger_visible]
  · simp only [State.outputs, State.tickPass_outVA, State.tickPass_outBZ, State.tickPass_outVB, State.tickPass_trigLine,
      hlines]
    rw [← tickedOutput_visible, hva, ← tickedOutput_visible _ _ _ s.chBZ, hbz, ← tickedLevelVB_visible, hvb,
      tickedOutput_visible, tickedOutput_visible, tickedLevelVB_visible, hnow, houtVA, houtBZ, houtVB]

/-- Two outcomes that go on, to states with the same visible part. -/
def SameVisible (o o' : Host.Outcome State Fault Refusal) : Prop :=
  ∃ s t, o = .next s ∧ o' = .next t ∧ s.visible = t.visible

theorem exec_visible_congr {s t : State} (h : s.visible = t.visible) (i : Instr) : SameVisible (exec i s) (exec i t) := by
  cases i with
  | viba p => exact ⟨_, _, rfl, rfl, State.commit_visible_congr h _⟩
  | vibb p => exact ⟨_, _, rfl, rfl, State.commit_visible_congr h _⟩
  | buzz p => exact ⟨_, _, rfl, rfl, State.commit_visible_congr h _⟩
  | comb p => exact ⟨_, _, rfl, rfl, State.commit_visible_congr h _⟩
  | ign source payload => exact ⟨_, _, rfl, rfl, State.commit_visible_congr h _⟩
  | drop m x y => exact ⟨_, _, rfl, rfl, State.endFrame_visible_congr h⟩
  | tick => exact ⟨_, _, rfl, rfl, State.tickPass_visible_congr h _⟩

/-- The choice of the next step reads the clock, the timer and the stream. -/
theorem State.nextEvent_congr {s t : State} (h : s.visible = t.visible) : s.nextEvent = t.nextEvent := by
  obtain ⟨-, -, -, -, hnow, hnext, hrx⟩ := State.visible_eq_iff.mp h
  rw [State.nextEvent, State.nextEvent, hnow, hnext, hrx]

theorem step_visible_congr {s t : State} (h : s.visible = t.visible) : SameVisible (step s) (step t) := by
  obtain ⟨-, -, hdec, -⟩ := State.visible_eq_iff.mp h
  have hev := State.nextEvent_congr h
  cases hs : s.nextEvent with
  | tick =>
    rw [step_of_tick hs, step_of_tick (hev ▸ hs)]
    exact exec_visible_congr (State.enterTick_visible_congr h) .tick
  | byte tm b rest =>
    have ht : t.nextEvent = .byte tm b rest := hev ▸ hs
    have heff := Decoder.rxByte_visible_congr hdec b
    cases hd : s.dec.rxByte b <;> cases he : t.dec.rxByte b <;> rw [hd, he] at heff
    case more.more d e =>
      rw [step_of_more hs hd, step_of_more ht he]
      exact ⟨_, _, rfl, rfl, State.takeByte_visible_congr h tm rest (ByteEffect.more.inj heff)⟩
    case complete.complete d i e j =>
      obtain ⟨hde, rfl⟩ := ByteEffect.complete.inj heff
      rw [step_of_complete hs hd, step_of_complete ht he]
      exact exec_visible_congr (State.takeByte_visible_congr h tm rest hde) i
    case more.complete => cases heff
    case complete.more => cases heff

theorem run_visible_congr (k : Nat) {s t : State} (h : s.visible = t.visible) : SameVisible (run k s) (run k t) := by
  induction k generalizing s t with
  | zero => exact ⟨s, t, rfl, rfl, h⟩
  | succ k ih =>
    obtain ⟨s', t', hs, ht, h'⟩ := step_visible_congr h
    rw [run_succ k hs, run_succ k ht]
    exact ih h'

/-- Settles O47: equality of the visible parts is kept by every step and determines the outputs. -/
theorem unreadStateNeverShowsOnTheOutputs : Obligations.UnreadStateNeverShowsOnTheOutputs := by
  intro k s t h
  obtain ⟨s', t', hs, ht, h'⟩ := run_visible_congr k h
  obtain ⟨-, -, -, hout, -⟩ := State.visible_eq_iff.mp h'
  exact ⟨s', t', hs, ht, h', hout⟩

end Sys2Proof.Machine

/-! PROOFS of family 20_memory: the stream and the order of the two agents, the byte order of durations, what a
delivered frame does, and how a record may change in one step (20_memory R61 to R64, R69, R72). -/

namespace Sys2Proof.Machine

/-! A delivered frame. -/

/-- 40_frame_commands R114: from a frame boundary the third byte of a header without the start marker completes
a `DROP`. -/
theorem Decoder.takes_dropped (d : Decoder) (hp : d.phase = .hdr) (hc : d.cnt = 0) {marker : Byte}
    (hm : marker ≠ 0xAA) (second third : Byte) :
    ∃ e e', Takes d [marker, second] e ∧ e.rxByte third = .complete e' (.drop marker second third) ∧
      e'.hdr = #v[marker, second, third] := by
  generalize he : { d with hdr := (d.hdr.set 0 marker).set 1 second, cnt := 2 } = e
  have hphase : e.phase = .hdr := by rw [← he]; exact hp
  have hcount : ¬ e.cnt.toNat < 2 := by rw [← he]; exact Nat.lt_irrefl 2
  have hreg : (e.storeHeader third).hdr = #v[marker, second, third] := by
    subst he
    ext n hn
    match n, hn with
    | 0, _ | 1, _ | 2, _ => simp [Decoder.storeHeader]
  refine ⟨e, e.storeHeader third, he ▸ takes_header d hp hc marker second, ?_, hreg⟩
  rw [rxByte_hdr hphase, if_neg hcount, hreg]
  exact if_pos hm

/-- From a frame boundary the Decoder takes the bytes of a well-formed frame up to the last one, which completes an
operation of the frame's meaning; the registers then hold the header and the first eight payload bytes. -/
theorem Decoder.takes_encode (d : Decoder) (hp : d.phase = .hdr) (hc : d.cnt = 0) {i : Instr} (hwf : i.wf = true)
    (ht : i ≠ .tick) :
    ∃ init last e e' j, encode i = init ++ [last] ∧ Takes d init e ∧ e.rxByte last = .complete e' j ∧
      (∀ s, exec j s = exec i s) ∧ e'.hdr.toList = (encode i).take 3 ∧
      e'.pl.toList.take ((encode i).length - 3) = ((encode i).drop 3).take 8 := by
  rcases encode_cases hwf ht with ⟨marker, second, third, rfl, hm⟩ | ⟨source, payload, henc, hlen, rfl⟩
  · obtain ⟨e, e', htake, hlast, hhdr⟩ := takes_dropped d hp hc hm second third
    exact ⟨_, third, e, e', _, rfl, htake, hlast, fun _ => rfl, by rw [hhdr]; rfl, by simp [encode]⟩
  · obtain ⟨init, last, e, e', hsplit, htake, hlast, hhdr, hpl⟩ := takes_frame d hp hc source payload hlen
    rw [henc]
    exact ⟨init, last, e, e', _, hsplit, htake, hlast, exec_decodeFrame_take source payload, by rw [hhdr]; rfl,
      by rw [Laws.frame_length]; exact hpl⟩

theorem run_one (s : State) : run 1 s = step s := by
  cases h : step s <;> simp only [run, h]

/-- Bytes that are due before the next tick and of which the last completes an operation: a run of one step per
byte is that operation at the latest of their times. -/
theorem run_completes {s : State} {init : List Byte} {last : Byte} {e e' : Decoder} {i : Instr}
    (htake : Decoder.Takes s.dec init e) (hlast : e.rxByte last = .complete e' i) {ds rest : List Delivery}
    (hbytes : ds.map Delivery.byte = init ++ [last]) (hrx : s.rx = ds ++ rest) (hnow : s.now < s.nextTick)
    (htime : ∀ d ∈ ds, d.time < s.nextTick) :
    run ds.length s =
      exec i { s with now := (ds.map Delivery.time).foldl max s.now, rx := rest, dec := e' } := by
  obtain ⟨xs, ys, rfl, hxs, hys⟩ := List.map_eq_append_iff.mp hbytes
  obtain ⟨x, rfl, rfl⟩ := List.map_eq_singleton_iff.mp hys
  have htxs : ∀ d ∈ xs, d.time < s.nextTick := fun d hd => htime d (List.mem_append_left _ hd)
  have hrun := run_takes htake xs (x :: rest) s 1 hxs rfl (by simpa using hrx) hnow htxs
  have hev := nextEvent_of_before
    (s := { s with now := (xs.map Delivery.time).foldl max s.now, rx := x :: rest, dec := e }) rfl
    (foldl_max_lt hnow htxs) (htime x (by simp))
  rw [List.length_append, List.length_singleton, hrun, run_one, step_of_complete hev hlast, List.map_append,
    List.foldl_append]
  rfl

/-- Settles O11: all bytes but the last are taken, and the last runs the frame's operation. -/
theorem deliveredFrameRunsItsOperation : Obligations.DeliveredFrameRunsItsOperation := by
  intro i s ds rest hwf hi hphase hcnt hrx hbytes hnow htime
  obtain ⟨init, last, e, e', j, hsplit, htake, hlast, hexec, hhdr, hpl⟩ := s.dec.takes_encode hphase hcnt hwf hi
  refine ⟨e', ?_, hhdr, hpl⟩
  rw [run_completes htake hlast (hbytes.trans hsplit) hrx hnow htime, hexec]

/-! A record in one step. -/

/-- After an operation a record is as before, or turned off, or activated by valid operands in the commit that also
asserts the trigger (20_memory R69). -/
theorem exec_ch {i : Instr} {s t : State} (h : exec i s = .next t) (c : ChannelId) :
    t.ch c = s.ch c ∨ t.ch c = { s.ch c with active := false } ∨
    ∃ g : FieldGroup, g.freq ≠ 0 ∧ g.dur ≠ 0 ∧ Activated (t.ch c) g t.now ∧
      t.trig = { deadline := t.now + 5000, active := true } ∧ t.trigLine = true := by
  rcases exec_cases i s with ⟨-, e⟩ | ⟨-, targets, e⟩ | ⟨-, e⟩
  · rw [e] at h; cases h
    rw [State.tickPass_ch]
    rcases tickedChannel_cases s.now (s.ch c) with ⟨-, -, hoff⟩ | ⟨-, hsame⟩
    · exact .inr (.inl hoff)
    · exact .inl hsame
  · rw [e] at h; cases h
    obtain ⟨htrig, hline, -, -, -, -, hnow, -, -⟩ := State.commit_frame s targets
    rcases State.commit_ch s targets c with hsame | ⟨g, -, hvalid, hact⟩
    · exact .inl hsame
    · obtain ⟨hfreq, hdur⟩ := (groupValid_iff g).mp hvalid
      rw [hact, htrig, hnow]
      exact .inr (.inr ⟨g, hfreq, hdur, activatedChannel_spec g s.now, rfl, hline⟩)
  · rw [e] at h; cases h
    exact .inl (by cases c <;> rfl)

theorem State.enterTick_ch (s : State) (c : ChannelId) : s.enterTick.ch c = s.ch c := by cases c <;> rfl

/-- The Decoder taking a byte moves no record. -/
theorem State.takeByte_withDec_ch (s : State) (tm : Nat) (rest : List Delivery) (d : Decoder) (c : ChannelId) :
    ({ s.takeByte tm rest with dec := d } : State).ch c = s.ch c := by cases c <;> rfl

/-- Settles O46: a step moves a record only by the operation that it runs. -/
theorem recordsChangeAtomically : Obligations.RecordsChangeAtomically := by
  intro s t c h
  rcases step_cases h with ⟨-, rfl⟩ | ⟨tm, b, rest, -, ⟨d, -, rfl⟩ | ⟨d, i, -, -, hexec⟩⟩
  · rw [← s.enterTick_ch c]
    exact exec_ch (exec_tick s.enterTick) c
  · exact .inl (s.takeByte_withDec_ch tm rest d c)
  · rw [← s.takeByte_withDec_ch tm rest d c]
    exact exec_ch hexec c

/-! The byte order of durations. -/

/-- Settles O8: the value of the two bytes, then the document's three examples. -/
theorem durationIsLittleEndian : Obligations.DurationIsLittleEndian :=
  ⟨fun lo hi => by rw [le16_value]; omega, by decide, by decide, by decide⟩

/-! The order of the two agents. -/

theorem nextEvent_of_starved {s : State} (h : s.rx = []) : s.nextEvent = .tick := by
  rw [State.nextEvent, h]

theorem nextEvent_of_pending {s : State} {d : Delivery} {rest : List Delivery} (h : s.rx = d :: rest) :
    s.nextEvent =
      if max s.now d.time < s.nextTick ∨ (max s.now d.time = s.nextTick ∧ d.tickFirst = false) then
        .byte (max s.now d.time) d.byte rest
      else .tick := by
  rw [State.nextEvent, h]

/-- Settles O13: the byte's time against the tick's, and at a tie the delivery's flag. -/
theorem earlierAgentStepsFirst : Obligations.EarlierAgentStepsFirst := by
  intro s d rest
  refine ⟨nextEvent_of_starved, fun h hlt => ?_, fun h hgt => ?_, fun h htie hflag => ?_, fun h htie hflag => ?_⟩
  · rw [nextEvent_of_pending h, if_pos (.inl hlt)]
  · rw [nextEvent_of_pending h, if_neg (by omega)]
  · rw [nextEvent_of_pending h, if_neg (by simp [htie, hflag])]
  · rw [nextEvent_of_pending h, if_pos (.inr ⟨htie, hflag⟩), htie]

end Sys2Proof.Machine

/-! PROOFS of family 30_encoding: what the decoder answers for every list of bytes, both round trips, the opcode
table against the decoder, and the step that runs a placed table word (30_encoding R80 to R93). -/

namespace Sys2Proof

/-! The decoder, one rule for each of its answers (30_encoding R90, R91, 40_frame_commands R114, 60_exceptions R165). -/

theorem decode_of_short_header {bytes : List Byte} (h : bytes.length < 3) : decode bytes = .headerIncomplete := by
  match bytes, h with
  | [], _ => rfl
  | [_], _ => rfl
  | [_, _], _ => rfl

theorem decode_of_dropped {marker : Byte} (hm : marker ≠ 0xAA) (second third : Byte) (rest : List Byte) :
    decode (marker :: second :: third :: rest) = .instr (.drop marker second third) rest :=
  if_pos hm

theorem decode_of_short_payload {len : Byte} {rest : List Byte} (h : rest.length < len.toNat) (source : Byte) :
    decode (0xAA :: source :: len :: rest) = .payloadIncomplete :=
  if_pos h

theorem decode_of_whole_payload {len : Byte} {rest : List Byte} (h : len.toNat ≤ rest.length) (source : Byte) :
    decode (0xAA :: source :: len :: rest) =
      .instr (decodeFrame source (rest.take len.toNat)) (rest.drop len.toNat) :=
  if_neg (Nat.not_lt.mpr h)

theorem decode_of_exact_payload {len : Byte} {payload : List Byte} (h : payload.length = len.toNat) (source : Byte) :
    decode (0xAA :: source :: len :: payload) = .instr (decodeFrame source payload) [] := by
  rw [decode_of_whole_payload h.ge, ← h, List.take_length, List.drop_length]

/-- Bytes that cover the length byte are a frame and what follows it. -/
theorem frame_of_whole_payload {len : Byte} {rest : List Byte} (h : len.toNat ≤ rest.length) (source : Byte) :
    0xAA :: source :: len :: rest = frame source (rest.take len.toNat) ++ rest.drop len.toNat := by
  simp [frame, List.length_take, Nat.min_eq_left h]

/-- The four kinds of byte list: the header ends early, the header is dropped, the payload ends early, or a whole
frame stands at the front. -/
theorem decode_cases (bytes : List Byte) :
    (bytes.length < 3 ∧ decode bytes = .headerIncomplete) ∨
    (∃ marker second third rest, bytes = marker :: second :: third :: rest ∧ marker ≠ 0xAA ∧
      decode bytes = .instr (.drop marker second third) rest) ∨
    (∃ source len rest, bytes = 0xAA :: source :: len :: rest ∧ rest.length < len.toNat ∧
      decode bytes = .payloadIncomplete) ∨
    ∃ source payload rest, bytes = frame source payload ++ rest ∧ payload.length ≤ 255 ∧
      decode bytes = .instr (decodeFrame source payload) rest := by
  match bytes with
  | [] | [_] | [_, _] => exact .inl ⟨by simp, decode_of_short_header (by simp)⟩
  | marker :: source :: len :: rest =>
    by_cases hm : marker = 0xAA
    · subst hm
      rcases Nat.lt_or_ge rest.length len.toNat with hlen | hlen
      · exact .inr (.inr (.inl ⟨source, len, rest, rfl, hlen, decode_of_short_payload hlen source⟩))
      · exact .inr (.inr (.inr ⟨source, _, _, frame_of_whole_payload hlen source,
          by have := len.isLt; rw [List.length_take]; omega, decode_of_whole_payload hlen source⟩))
    · exact .inr (.inl ⟨marker, source, len, rest, rfl, hm, decode_of_dropped hm source len rest⟩)

/-! The two round trips. -/

/-- Settles O1: an operation's bytes are a dropped header or a marked frame. -/
theorem decodeOfEncodeIsIdentity : Obligations.DecodeOfEncodeIsIdentity := by
  intro i rest hwf htick
  rcases encode_cases hwf htick with ⟨marker, second, third, rfl, hm⟩ | ⟨source, payload, henc, hlen, rfl⟩
  · exact decode_of_dropped hm second third rest
  · rw [henc, decode_frame source payload rest hlen]

/-- Settles O2: only a dropped header and a whole frame are answered by an operation. -/
theorem encodeOfDecodeIsIdentity : Obligations.EncodeOfDecodeIsIdentity := by
  intro bytes rest i h
  rcases decode_cases bytes with ⟨-, e⟩ | ⟨marker, second, third, tail, rfl, hm, e⟩ | ⟨_, _, _, -, -, e⟩ |
    ⟨source, payload, tail, rfl, hlen, e⟩
  · cases e.symm.trans h
  · cases e.symm.trans h
    exact ⟨by simpa [Instr.wf] using hm, nofun, rfl⟩
  · cases e.symm.trans h
  · cases e.symm.trans h
    obtain ⟨hwf, henc⟩ := encode_decodeFrame source payload hlen
    exact ⟨hwf, Machine.decodeFrame_ne_tick source payload, by rw [henc]⟩

/-- Settles O3: each negative answer belongs to one of the four kinds of byte list. -/
theorem decodeFailsOnlyForMissingBytes : Obligations.DecodeFailsOnlyForMissingBytes := by
  refine fun bytes => ⟨⟨fun h => ?_, decode_of_short_header⟩, fun h => ?_, ?_⟩
  · rcases decode_cases bytes with ⟨hlen, -⟩ | ⟨_, _, _, _, -, -, e⟩ | ⟨_, _, _, -, -, e⟩ | ⟨_, _, _, -, -, e⟩
    · exact hlen
    all_goals cases e.symm.trans h
  · rcases decode_cases bytes with ⟨-, e⟩ | ⟨_, _, _, _, -, -, e⟩ | ⟨source, len, rest, hbytes, hlen, -⟩ |
      ⟨_, _, _, -, -, e⟩
    case inr.inr.inl => exact ⟨source, len, rest, hbytes, hlen⟩
    all_goals cases e.symm.trans h
  · rintro ⟨source, len, rest, rfl, hlen⟩
    exact decode_of_short_payload hlen source

/-! The opcode table's decision list (30_encoding R86). -/

theorem find?_cons_ite {α : Type} (p : α → Bool) (x : α) (xs : List α) :
    (x :: xs).find? p = if p x then some x else xs.find? p := by
  rw [List.find?_cons]; cases p x <;> rfl

/-- The first row whose masked bits are its pattern; the last row always matches. -/
theorem headerKind_eq (h : BitVec 24) :
    headerKind h =
      if h &&& 0xFFFF00 = 0xAA7600 then some .viba
      else if h &&& 0xFFFF00 = 0xAA7700 then some .vibb
      else if h &&& 0xFFFF00 = 0xAA6200 then some .buzz
      else if h &&& 0xFFFF00 = 0xAA6300 then some .comb
      else if h &&& 0xFF0000 = 0xAA0000 then some .ign
      else some .drop := by
  have hlast : h &&& 0 = 0 := BitVec.and_zero
  simp only [headerKind, headerRows, find?_cons_ite, apply_ite (Option.map HeaderRow.kind), beq_iff_eq, hlast, if_true,
    Option.map_some]

/-- The last row's mask is empty, so it matches whatever the others leave. -/
theorem headerKind_ne_none (h : BitVec 24) : headerKind h ≠ none := by
  intro hnone
  rw [headerKind, Option.map_eq_none_iff, List.find?_eq_none] at hnone
  exact hnone { mask := 0, pattern := 0, kind := .drop } (by simp [headerRows]) (by simp)

theorem hdr24_and (a b c a' b' c' : Byte) :
    hdr24 a b c &&& hdr24 a' b' c' = hdr24 (a &&& a') (b &&& b') (c &&& c') :=
  BitVec.and_append.trans (congrArg (· ++ (c &&& c')) BitVec.and_append)

theorem append_eq_append_iff {n m : Nat} {x x' : BitVec n} {y y' : BitVec m} :
    x ++ y = x' ++ y' ↔ x = x' ∧ y = y' := by
  refine ⟨fun h => ⟨?_, ?_⟩, fun ⟨hx, hy⟩ => by rw [hx, hy]⟩
  · simpa only [BitVec.extractLsb'_append_eq_left] using congrArg (BitVec.extractLsb' m n) h
  · simpa only [BitVec.extractLsb'_append_eq_right] using congrArg (BitVec.extractLsb' 0 m) h

theorem hdr24_eq_iff {a b c a' b' c' : Byte} : hdr24 a b c = hdr24 a' b' c' ↔ a = a' ∧ b = b' ∧ c = c' :=
  append_eq_append_iff.trans ((and_congr_left' append_eq_append_iff).trans and_assoc)

/-- The mask of the rows of one selector keeps the first two bytes of a header. -/
theorem hdr24_and_selectorMask (b0 b1 b2 : Byte) : hdr24 b0 b1 b2 &&& 0xFFFF00 = hdr24 b0 b1 0 :=
  (hdr24_and b0 b1 b2 (BitVec.allOnes 8) (BitVec.allOnes 8) 0#8).trans
    (by rw [BitVec.and_allOnes, BitVec.and_allOnes, BitVec.and_zero]; rfl)

/-- The mask of the row of other accepted headers keeps the first byte alone. -/
theorem hdr24_and_markerMask (b0 b1 b2 : Byte) : hdr24 b0 b1 b2 &&& 0xFF0000 = hdr24 b0 0 0 :=
  (hdr24_and b0 b1 b2 (BitVec.allOnes 8) 0#8 0#8).trans
    (by rw [BitVec.and_allOnes, BitVec.and_zero, BitVec.and_zero]; rfl)

/-- The kind that the table gives a header, by the header's bytes. -/
theorem headerKind_hdr24 (b0 b1 b2 : Byte) :
    headerKind (hdr24 b0 b1 b2) =
      if b0 = 0xAA ∧ b1 = 0x76 then some .viba
      else if b0 = 0xAA ∧ b1 = 0x77 then some .vibb
      else if b0 = 0xAA ∧ b1 = 0x62 then some .buzz
      else if b0 = 0xAA ∧ b1 = 0x63 then some .comb
      else if b0 = 0xAA then some .ign
      else some .drop := by
  have hviba : (0xAA7600 : BitVec 24) = hdr24 0xAA 0x76 0 := rfl
  have hvibb : (0xAA7700 : BitVec 24) = hdr24 0xAA 0x77 0 := rfl
  have hbuzz : (0xAA6200 : BitVec 24) = hdr24 0xAA 0x62 0 := rfl
  have hcomb : (0xAA6300 : BitVec 24) = hdr24 0xAA 0x63 0 := rfl
  have hign : (0xAA0000 : BitVec 24) = hdr24 0xAA 0 0 := rfl
  rw [headerKind_eq, hdr24_and_selectorMask, hdr24_and_markerMask, hviba, hvibb, hbuzz, hcomb, hign]
  simp only [hdr24_eq_iff, and_true]

/-- The kind of a dropped header, from the table. -/
theorem headerKind_of_dropped {marker : Byte} (hm : marker ≠ 0xAA) (second third : Byte) :
    headerKind (hdr24 marker second third) = some .drop := by
  simp only [headerKind_hdr24, hm, false_and, if_false]

/-- The kind of an accepted header is that of the operation dispatched on its selector. -/
theorem headerKind_of_accepted (source len : Byte) (payload : List Byte) :
    headerKind (hdr24 0xAA source len) = (decodeFrame source payload).headerKind := by
  simp only [headerKind_hdr24, true_and, if_true, decodeFrame, apply_ite Instr.headerKind]
  rfl

/-- Settles O4: a header with another first byte is the last row's, and one with the marker is told by its selector. -/
theorem headerTableClassifiesEveryHeader : Obligations.HeaderTableClassifiesEveryHeader := by
  refine ⟨headerKind_ne_none, fun b0 b1 b2 rest tail i h => ?_⟩
  rcases decode_cases (b0 :: b1 :: b2 :: rest) with ⟨-, e⟩ | ⟨marker, second, third, _, hbytes, hm, e⟩ |
    ⟨_, _, _, -, -, e⟩ | ⟨source, payload, _, hbytes, -, e⟩
  · cases e.symm.trans h
  · cases e.symm.trans h
    cases hbytes
    exact headerKind_of_dropped hm b1 b2
  · cases e.symm.trans h
  · cases e.symm.trans h
    cases hbytes
    exact headerKind_of_accepted b1 _ payload

/-! The opcode table's words (log 11). -/

theorem decodeTableWord_of_no_bits (w : Nat) : decodeTableWord 0 w = some .tick := rfl

/-- A word with bits spells exactly one frame: its header announces as many payload bytes as the word gives. -/
theorem decode_tableBytes (nbits w : Nat) : ∃ i, decode (tableBytes nbits w) = .instr i [] := by
  rw [tableBytes]
  split
  · next hm =>
    rw [hm]
    exact ⟨_, decode_of_exact_payload (by rw [List.length_map, List.length_range]) _⟩
  · next hm => exact ⟨_, decode_of_dropped hm _ _ _⟩

/-- The operation of a word with bits is well formed, and the word's bytes are its encoding. -/
theorem encode_of_decodeTableWord {nbits w : Nat} {i : Instr} (hn : nbits ≠ 0) (h : decodeTableWord nbits w = some i) :
    i.wf = true ∧ i ≠ .tick ∧ encode i = tableBytes nbits w := by
  obtain ⟨j, hj⟩ := decode_tableBytes nbits w
  rw [decodeTableWord, if_neg hn, hj] at h
  cases h
  simpa only [List.append_nil] using encodeOfDecodeIsIdentity _ _ _ hj

namespace Machine

/-! The step that runs a placed operation (log 13). -/

theorem step_placeTick (s : State) :
    step s.placeTick = exec .tick { s with rx := [], now := s.nextTick, nextTick := s.nextTick + 1000 } :=
  step_of_tick (nextEvent_of_starved s.placeTick_rx)

/-- A placed frame's last byte is due now, before the tick even at a tie, and it completes the frame. -/
theorem step_placeFrame {s : State} (hs : s.now ≤ s.nextTick) {i : Instr} (hwf : i.wf = true) (hi : i ≠ .tick) :
    ∃ d : Decoder, step (s.placeFrame (encode i)) = exec i { s with dec := d } := by
  obtain ⟨init, last, e, e', j, hsplit, htake, hlast, hexec, -, -⟩ :=
    s.dec.endFrame.takes_encode s.dec.endFrame_phase s.dec.endFrame_cnt hwf hi
  have hdec : (s.placeFrame (encode i)).dec = e := by
    rw [hsplit, State.placeFrame, List.dropLast_concat]
    exact htake.foldl
  have hev : (s.placeFrame (encode i)).nextEvent = .byte s.now last s.rx := by
    rw [hsplit, State.placeFrame, List.getLastD_concat, nextEvent_of_pending rfl]
    simp only [Nat.max_self]
    exact if_pos (by simpa using hs.lt_or_eq)
  refine ⟨e', ?_⟩
  rw [step_of_complete hev (hdec ▸ hlast), hexec]
  rfl

/-- Settles O12: the event row is a tick, and a word with bits is the encoding of the operation read from it. -/
theorem placedTableWordRunsItsOperation : Obligations.PlacedTableWordRunsItsOperation := by
  refine fun s nbits w i hs h => ⟨?_, fun hn => ?_⟩
  · rintro rfl
    cases (decodeTableWord_of_no_bits w).symm.trans h
    exact ⟨rfl, step_placeTick s⟩
  · obtain ⟨hwf, hi, henc⟩ := encode_of_decodeTableWord hn h
    rw [State.withFetchWord, if_neg hn, ← henc]
    exact step_placeFrame hs hwf hi

end Machine

/-! The spec's examples, one word of each table row, and the operands of a field group (30_encoding R86, R89, R93). -/

/-- Settles O5, by running the decoder on the two frames of 30_encoding R93. -/
theorem specExampleFramesDecode : Obligations.SpecExampleFramesDecode := ⟨by decide, by decide⟩

/-- Settles O6, by running the decoder on one word of each row. -/
theorem tableWordsOfEachRowDecode : Obligations.TableWordsOfEachRowDecode :=
  ⟨by decide, by decide, by decide, by decide, by decide, by decide, decodeTableWord_of_no_bits 0⟩

theorem fieldGroup_dur_toNat (amp freq lo hi : Byte) :
    (fieldGroup amp freq lo hi).dur.toNat = lo.toNat + 256 * hi.toNat := Machine.durationIsLittleEndian.1 lo hi

/-- Settles O7: both groups are `fieldGroup` of their four bytes. -/
theorem fieldGroupIsAssembledFromItsBytes : Obligations.FieldGroupIsAssembledFromItsBytes :=
  fun a f lo hi a' f' lo' hi' _ =>
    ⟨fieldGroup a f lo hi, fieldGroup a' f' lo' hi', rfl, rfl, rfl, rfl, fieldGroup_dur_toNat a f lo hi, rfl, rfl,
      fieldGroup_dur_toNat a' f' lo' hi'⟩

end Sys2Proof

/-! PROOFS of family 40_frame_commands: what a command writes, what a frame leaves alone, the Decoder's transition
table, and what a command's delivered bytes do (40_frame_commands R100 to R118). -/

namespace Sys2Proof.Machine

/-! The state after a commit, written out (R105 to R108). -/

theorem State.commit_nil (s : State) : s.commit [] = s.accepted := rfl

theorem State.commit_of_some_invalid (s : State) {targets : List (ChannelId × FieldGroup)}
    (h : ∃ t ∈ targets, ¬ groupValid t.2 = true) : s.commit targets = s.accepted :=
  s.commit_of_invalid (List.all_eq_false.mpr h)

theorem State.commit_one (s : State) (c : ChannelId) {g : FieldGroup} (h : groupValid g = true) :
    s.commit [(c, g)] = s.accepted.setCh c (activatedChannel g s.now) := by
  rw [s.commit_of_valid (by simpa using h)]
  cases c <;> rfl

theorem State.commit_both (s : State) {a b : FieldGroup} (ha : groupValid a = true) (hb : groupValid b = true) :
    s.commit [(.VA, a), (.BZ, b)] =
      { s.accepted with chVA := activatedChannel a s.now, chBZ := activatedChannel b s.now } := by
  rw [s.commit_of_valid (by simp [ha, hb])]
  rfl

/-! The three one-channel commands as one (R109 to R111). -/

/-- The one-channel command that targets a channel. -/
def commandOf : ChannelId → SinglePayload → Instr
  | .VA => .viba
  | .VB => .vibb
  | .BZ => .buzz

theorem exec_commandOf (c : ChannelId) (p : SinglePayload) (s : State) :
    exec (commandOf c p) s = .next (s.commit (singleTargets c p)) := by
  cases c <;> rfl

theorem exec_commandOf_valid (c : ChannelId) {g : FieldGroup} (h : groupValid g = true) (extra : List Byte) (s : State) :
    exec (commandOf c (.operands g extra)) s = .next (s.accepted.setCh c (activatedChannel g s.now)) :=
  (exec_commandOf c _ s).trans (congrArg _ (s.commit_one c h))

theorem exec_commandOf_invalid (c : ChannelId) {g : FieldGroup} (h : ¬ groupValid g = true) (extra : List Byte)
    (s : State) : exec (commandOf c (.operands g extra)) s = .next s.accepted :=
  (exec_commandOf c _ s).trans (congrArg _ (s.commit_of_some_invalid ⟨(c, g), List.mem_singleton_self _, h⟩))

theorem exec_commandOf_short (c : ChannelId) (bytes : List Byte) (s : State) :
    exec (commandOf c (.short bytes)) s = .next s.accepted :=
  exec_commandOf c _ s

/-- The whole effect of a one-channel command: its record and the trigger, or the trigger alone. -/
theorem exec_commandOf_effect (c : ChannelId) (s : State) :
    (∀ (g : FieldGroup) (extra : List Byte), g.freq ≠ 0 → g.dur ≠ 0 →
      ∃ r : Channel, Activated r g s.now ∧ exec (commandOf c (.operands g extra)) s = .next (s.accepted.setCh c r)) ∧
    (∀ (g : FieldGroup) (extra : List Byte), g.freq = 0 ∨ g.dur = 0 →
      exec (commandOf c (.operands g extra)) s = .next s.accepted) ∧
    (∀ bytes : List Byte, exec (commandOf c (.short bytes)) s = .next s.accepted) := by
  refine ⟨fun g extra hfreq hdur => ?_, fun g extra hzero => ?_, fun bytes => exec_commandOf_short c bytes s⟩
  · exact ⟨_, activatedChannel_spec g s.now, exec_commandOf_valid c ((groupValid_iff g).mpr ⟨hfreq, hdur⟩) extra s⟩
  · refine exec_commandOf_invalid c (fun hvalid => ?_) extra s
    obtain ⟨hfreq, hdur⟩ := (groupValid_iff g).mp hvalid
    exact hzero.elim hfreq hdur

/-- Settles O17: `VIBA` is the one-channel command of `ch[VA]`. -/
theorem vibaWritesVibrationA : Obligations.VibaWritesVibrationA := exec_commandOf_effect .VA

/-- Settles O18: `VIBB` is the one-channel command of `ch[VB]`. -/
theorem vibbWritesVibrationB : Obligations.VibbWritesVibrationB := exec_commandOf_effect .VB

/-- Settles O19: `BUZZ` is the one-channel command of `ch[BZ]`. -/
theorem buzzWritesTheBuzzer : Obligations.BuzzWritesTheBuzzer := exec_commandOf_effect .BZ

/-! The combined command (R112). -/

theorem exec_comb_valid {a b : FieldGroup} (ha : groupValid a = true) (hb : groupValid b = true) (extra : List Byte)
    (s : State) :
    exec (.comb (.operands a b extra)) s =
      .next { s.accepted with chVA := activatedChannel a s.now, chBZ := activatedChannel b s.now } :=
  congrArg Host.Outcome.next (s.commit_both ha hb)

theorem exec_comb_invalid {a b : FieldGroup} (h : ¬ groupValid a = true ∨ ¬ groupValid b = true) (extra : List Byte)
    (s : State) : exec (.comb (.operands a b extra)) s = .next s.accepted :=
  congrArg Host.Outcome.next (s.commit_of_some_invalid (by simpa [pairTargets] using h))

/-- Settles O20: both halves valid, one of them invalid, or the payload short. -/
theorem combWritesBothChannelsOrNeither : Obligations.CombWritesBothChannelsOrNeither := by
  refine fun s => ⟨fun a b extra hfa hda hfb hdb => ?_, fun a b extra hzero => ?_, fun bytes => rfl⟩
  · have ha := (groupValid_iff a).mpr ⟨hfa, hda⟩
    have hb := (groupValid_iff b).mpr ⟨hfb, hdb⟩
    exact ⟨_, _, activatedChannel_spec a s.now, activatedChannel_spec b s.now, exec_comb_valid ha hb extra s⟩
  · refine exec_comb_invalid ?_ extra s
    rw [groupValid_iff, groupValid_iff]
    tauto

/-! Frames that write no record (R113, R114). -/

/-- Settles O21: the target list of `IGN` is empty. -/
theorem ignOnlyAssertsTheTrigger : Obligations.IgnOnlyAssertsTheTrigger := fun s _ _ =>
  congrArg Host.Outcome.next s.commit_nil

theorem exec_drop (marker second third : Byte) (s : State) : exec (.drop marker second third) s = .next s.endFrame := rfl

/-! An activation against the record that was there (R106, R115). -/

@[simp] theorem State.setCh_setCh (s : State) (c : ChannelId) (old r : Channel) :
    (s.setCh c old).setCh c r = s.setCh c r := by
  cases c <;> rfl

theorem State.setCh_comm (s : State) {c c' : ChannelId} (h : c ≠ c') (r r' : Channel) :
    (s.setCh c r).setCh c' r' = (s.setCh c' r').setCh c r := by
  match c, c', h with
  | .VA, .VB, _ | .VA, .BZ, _ | .VB, .VA, _ | .VB, .BZ, _ | .BZ, .VA, _ | .BZ, .VB, _ => rfl

theorem State.accepted_setCh (s : State) (c : ChannelId) (r : Channel) :
    (s.setCh c r).accepted = s.accepted.setCh c r := by
  cases c <;> rfl

/-- Settles O24: the record written is the activated one, and writing it hides what was there. -/
theorem activateWritesFiveFields : Obligations.ActivateWritesFiveFields := by
  intro s c g hfreq hdur
  have hspec := activatedChannel_spec g s.now
  obtain ⟨hmin, hmax⟩ := (activatedChannel_inv ((groupValid_iff g).mpr ⟨hfreq, hdur⟩) s.now).period hspec.active
  have hpos : 0 < g.dur.toNat := Nat.pos_of_ne_zero fun e => hdur (BitVec.eq_of_toNat_eq e)
  have hlt := g.dur.isLt
  refine ⟨_, hspec, hmin, hmax, ?_, ?_, fun old => ?_⟩
  · rw [hspec.deadline]; omega
  · rw [hspec.deadline]; omega
  · rw [State.activate, State.setCh_now, State.setCh_setCh]

/-- A valid one-channel command leaves the same state whatever record was there, and no other record changes. -/
theorem exec_commandOf_overwrites (c : ChannelId) {g : FieldGroup} (h : groupValid g = true) (extra : List Byte)
    (s : State) (old : Channel) :
    ∃ t : State, exec (commandOf c (.operands g extra)) (s.setCh c old) = .next t ∧
      (∀ c' ≠ c, t.ch c' = s.ch c') ∧ exec (commandOf c (.operands g extra)) s = .next t := by
  refine ⟨_, ?_, fun c' hc' => ?_, exec_commandOf_valid c h extra s⟩
  · rw [exec_commandOf_valid c h, State.accepted_setCh, State.setCh_setCh, State.setCh_now]
  · rw [State.setCh_ch, if_neg hc']
    cases c' <;> rfl

/-- Settles O26: the written records do not depend on those that they replace. -/
theorem validCommandOverwritesTheRecord : Obligations.ValidCommandOverwritesTheRecord := by
  intro s g g' extra old old' hfreq hdur hfreq' hdur'
  have hg := (groupValid_iff g).mpr ⟨hfreq, hdur⟩
  have hg' := (groupValid_iff g').mpr ⟨hfreq', hdur'⟩
  refine ⟨?_, ?_, ?_, _, exec_comb_valid hg hg' extra _, rfl, exec_comb_valid hg hg' extra s⟩
  · obtain ⟨t, hold, hothers, hs⟩ := exec_commandOf_overwrites .VA hg extra s old
    exact ⟨t, hold, hothers .VB nofun, hothers .BZ nofun, hs⟩
  · obtain ⟨t, hold, hothers, hs⟩ := exec_commandOf_overwrites .VB hg extra s old
    exact ⟨t, hold, hothers .VA nofun, hothers .BZ nofun, hs⟩
  · obtain ⟨t, hold, hothers, hs⟩ := exec_commandOf_overwrites .BZ hg extra s old
    exact ⟨t, hold, hothers .VA nofun, hothers .VB nofun, hs⟩

/-! What every frame does and what none does (R107, R116). -/

/-- Settles O25: an accepted frame is a commit. -/
theorem everyAcceptedFrameAssertsTheTrigger : Obligations.EveryAcceptedFrameAssertsTheTrigger := by
  intro i s hacc
  rcases exec_cases i s with ⟨rfl, -⟩ | ⟨-, targets, e⟩ | ⟨⟨_, _, _, rfl⟩, -⟩
  · cases hacc
  · obtain ⟨htrig, hline, -⟩ := State.commit_frame s targets
    exact ⟨_, e, htrig, hline⟩
  · cases hacc

/-- A frame is a commit of targets that its bytes alone decide, or it ends without one. -/
theorem exec_frame_cases {i : Instr} (hi : i ≠ .tick) :
    (∃ targets, ∀ s, exec i s = .next (s.commit targets)) ∨ ∀ s, exec i s = .next s.endFrame := by
  cases i with
  | viba p => exact .inl ⟨_, fun _ => rfl⟩
  | vibb p => exact .inl ⟨_, fun _ => rfl⟩
  | buzz p => exact .inl ⟨_, fun _ => rfl⟩
  | comb p => exact .inl ⟨_, fun _ => rfl⟩
  | ign source payload => exact .inl ⟨_, fun _ => rfl⟩
  | drop m x y => exact .inr fun _ => rfl
  | tick => exact absurd rfl hi

theorem State.commit_active (s : State) (targets : List (ChannelId × FieldGroup)) (c : ChannelId)
    (h : (s.ch c).active = true) : ((s.commit targets).ch c).active = true := by
  rcases State.commit_ch s targets c with e | ⟨g, -, -, e⟩
  · rw [e, h]
  · rw [e]; rfl

/-- A list of activations reads no record: one put in a channel's place is overwritten or stays. -/
theorem State.activateAll_setCh (targets : List (ChannelId × FieldGroup)) (s : State) (c : ChannelId) (r : Channel) :
    (s.setCh c r).activateAll targets = s.activateAll targets ∨
    (s.setCh c r).activateAll targets = (s.activateAll targets).setCh c r := by
  induction targets generalizing s with
  | nil => exact .inr rfl
  | cons x rest ih =>
    obtain ⟨c', g⟩ := x
    simp only [State.activateAll]
    by_cases hc : c = c'
    · subst hc
      simp [State.activate]
    · have hcomm : (s.setCh c r).activate c' g = (s.activate c' g).setCh c r := by
        rw [State.activate, State.setCh_now, State.setCh_comm s hc]; rfl
      rw [hcomm]
      exact ih _

theorem State.endFrame_setCh (s : State) (c : ChannelId) (r : Channel) : (s.setCh c r).endFrame = s.endFrame.setCh c r := by
  cases c <;> rfl

theorem State.assertTrigger_setCh (s : State) (c : ChannelId) (r : Channel) :
    (s.setCh c r).assertTrigger = s.assertTrigger.setCh c r := by
  cases c <;> rfl

/-- A commit reads no record. -/
theorem State.commit_setCh (s : State) (targets : List (ChannelId × FieldGroup)) (c : ChannelId) (r : Channel) :
    (s.setCh c r).commit targets = s.commit targets ∨
    (s.setCh c r).commit targets = (s.commit targets).setCh c r := by
  cases hv : targets.all fun t => groupValid t.2 with
  | false =>
    rw [State.commit_of_invalid _ hv, State.commit_of_invalid _ hv, State.assertTrigger_setCh, State.endFrame_setCh]
    exact .inr rfl
  | true =>
    rw [State.commit_of_valid _ hv, State.commit_of_valid _ hv]
    rcases State.activateAll_setCh targets s c r with e | e
    · exact .inl (by rw [e])
    · exact .inr (by rw [e, State.assertTrigger_setCh, State.endFrame_setCh])

/-- Settles O27: a commit writes whole active records and raises the line; the end of a frame moves the Decoder alone. -/
theorem framesNeverTouchOutputsOrClearFlags : Obligations.FramesNeverTouchOutputsOrClearFlags := by
  intro i s hi
  rcases exec_frame_cases hi with ⟨targets, e⟩ | e
  · obtain ⟨htrig, hline, -, hva, hbz, hvb, hnow, hnext, hrx⟩ := State.commit_frame s targets
    refine ⟨_, e s, hva, hbz, hvb, s.commit_active targets, fun _ => by rw [htrig], fun _ => hline, hrx, hnow, hnext,
      fun c r => ?_⟩
    rw [e]
    exact (s.commit_setCh targets c r).imp (congrArg _) (congrArg _)
  · refine ⟨_, e s, rfl, rfl, rfl, fun c hc => by cases c <;> exact hc, id, id, rfl, rfl, rfl, fun c r => .inr ?_⟩
    rw [e, State.endFrame_setCh]

/-! The Decoder's transition table (R118), row by row. -/

theorem Decoder.rxByte_first {d : Decoder} (hp : d.phase = .hdr) (hc : d.cnt = 0) (b : Byte) :
    d.rxByte b = .more { d with hdr := d.hdr.set 0 b, cnt := 1 } := by
  rw [Decoder.rxByte_hdr hp, if_pos (by rw [hc]; decide)]
  simp [Decoder.storeHeader, hc]

theorem Decoder.rxByte_second {d : Decoder} (hp : d.phase = .hdr) (hc : d.cnt = 1) (b : Byte) :
    d.rxByte b = .more { d with hdr := d.hdr.set 1 b, cnt := 2 } := by
  rw [Decoder.rxByte_hdr hp, if_pos (by rw [hc]; decide)]
  simp [Decoder.storeHeader, hc]

theorem Decoder.storeHeader_third {d : Decoder} (hc : d.cnt = 2) (b : Byte) :
    d.storeHeader b = { d with hdr := d.hdr.set 2 b } := by
  simp [Decoder.storeHeader, hc]

/-- The third header byte: the marker decides whether the header is dropped, the length whether a payload follows. -/
theorem Decoder.rxByte_third {d : Decoder} (hp : d.phase = .hdr) (hc : d.cnt = 2) (b : Byte) :
    d.rxByte b =
      if d.hdr[0] ≠ 0xAA then .complete { d with hdr := d.hdr.set 2 b } (.drop d.hdr[0] d.hdr[1] b)
      else if b = 0 then .complete { d with hdr := d.hdr.set 2 b } (decodeFrame d.hdr[1] [])
      else .more { d with hdr := d.hdr.set 2 b, phase := .payload, cnt := 0 } := by
  rw [Decoder.rxByte_hdr hp, if_neg (by rw [hc]; decide), Decoder.storeHeader_third hc]
  simp

theorem Decoder.endFrame_of_hdr {d : Decoder} (hp : d.phase = .hdr) : d.endFrame = { d with cnt := 0 } := by
  rw [Decoder.endFrame, hp]

/-- The step of the third byte of a header without the start marker. -/
theorem step_of_dropped {s : State} {tm : Nat} {b : Byte} {rest : List Delivery} (hev : s.nextEvent = .byte tm b rest)
    (hp : s.dec.phase = .hdr) (hc : s.dec.cnt = 2) (hm : s.dec.hdr[0] ≠ 0xAA) :
    step s = .next { s with now := tm, rx := rest, dec := { s.dec with hdr := s.dec.hdr.set 2 b, cnt := 0 } } := by
  have hend := Decoder.endFrame_of_hdr (d := { s.dec with hdr := s.dec.hdr.set 2 b }) hp
  rw [step_of_complete hev ((Decoder.rxByte_third hp hc b).trans (if_pos hm)), exec_drop, State.endFrame, hend]
  rfl

/-- Settles O22: the step is the table's row for a header without the start marker. -/
theorem dropForgetsTheHeader : Obligations.DropForgetsTheHeader :=
  ⟨fun s marker second third => exec_drop marker second third s,
    fun s _ b _ hev hp hc hm =>
      ⟨{ s.dec with hdr := s.dec.hdr.set 2 b, cnt := 0 }, hp, rfl, step_of_dropped hev hp hc hm⟩⟩

/-- Settles O9: a row of the table for each phase and count. -/
theorem byteStepFollowsTransitionTable : Obligations.ByteStepFollowsTransitionTable := by
  intro s tm b rest hev
  refine ⟨fun hp hc => ?_, fun hp hc => ?_, step_of_dropped hev, fun hp hc hm hb => ?_, fun hp hc hm hb => ?_,
    fun hp hlt => ?_, fun hp heq => ?_⟩
  · exact step_of_more hev (Decoder.rxByte_first hp hc b)
  · exact step_of_more hev (Decoder.rxByte_second hp hc b)
  · have hrow := Decoder.rxByte_third hp hc b
    rw [if_neg (not_not.mpr hm), if_pos hb] at hrow
    exact step_of_complete hev hrow
  · have hrow := Decoder.rxByte_third hp hc b
    rw [if_neg (not_not.mpr hm), if_neg hb] at hrow
    exact step_of_more hev hrow
  · have hcnt : (s.dec.cnt + 1).toNat = s.dec.cnt.toNat + 1 := by
      have := s.dec.hdr[2].isLt
      simp; omega
    exact ⟨_, step_of_more hev ((Decoder.rxByte_payload hp b).trans (if_pos hlt)), hp, hcnt, rfl, rfl⟩
  · exact step_of_complete hev ((Decoder.rxByte_payload hp b).trans (if_neg (by omega)))

/-! A command's bytes, delivered (R104, R117, 30_encoding R92). -/

/-- The selector of a channel's command (log 12). -/
def selectorOf : ChannelId → Byte
  | .VA => Config.srcViba
  | .VB => Config.srcVibb
  | .BZ => Config.srcBuzz

theorem encode_commandOf (c : ChannelId) (p : SinglePayload) : encode (commandOf c p) = frame (selectorOf c) p.bytes := by
  cases c <;> rfl

theorem commandOf_ne_tick (c : ChannelId) (p : SinglePayload) : commandOf c p ≠ .tick := by
  cases c <;> nofun

theorem frame_of_length {len : Byte} {payload : List Byte} (h : len.toNat = payload.length) (source : Byte) :
    frame source payload = 0xAA :: source :: len :: payload := by
  rw [frame, ← h, BitVec.ofNat_toNat, BitVec.setWidth_eq, Config.startMarker]

theorem groupValid_fieldGroup {freq lo hi : Byte} (hfreq : freq ≠ 0) (hdur : lo.toNat + 256 * hi.toNat ≠ 0) (amp : Byte) :
    groupValid (fieldGroup amp freq lo hi) = true := by
  refine (groupValid_iff _).mpr ⟨hfreq, fun e => hdur ?_⟩
  rw [← fieldGroup_dur_toNat amp freq lo hi, e]
  rfl

theorem bytes_fieldGroup (amp freq lo hi : Byte) : (fieldGroup amp freq lo hi).bytes = [amp, freq, lo, hi] := by
  simp [fieldGroup, FieldGroup.bytes]

/-- The deadline that the two duration bytes spell. -/
theorem deadline_fieldGroup (amp freq lo hi : Byte) (t : Nat) :
    (activatedChannel (fieldGroup amp freq lo hi) t).deadline = t + 1000 * (lo.toNat + 256 * hi.toNat) := by
  rw [(activatedChannel_spec _ t).deadline, fieldGroup_dur_toNat]

/-- A length byte of 4 or more spells a well-formed one-channel command. -/
theorem commandOf_wf_of_length (c : ChannelId) {len : Byte} {extra : List Byte} (h : len.toNat = 4 + extra.length)
    (g : FieldGroup) : (commandOf c (.operands g extra)).wf = true := by
  have hpayload : (SinglePayload.operands g extra).wf = true := by
    have := len.isLt
    simp only [SinglePayload.wf, decide_eq_true_eq]
    omega
  cases c <;> exact hpayload

/-- A length byte of 8 or more spells a well-formed combined command. -/
theorem comb_wf_of_length {len : Byte} {extra : List Byte} (h : len.toNat = 8 + extra.length) (a b : FieldGroup) :
    (Instr.comb (.operands a b extra)).wf = true := by
  have := len.isLt
  simp only [Instr.wf, PairPayload.wf, decide_eq_true_eq]
  omega

theorem encode_commandOf_fieldGroup (c : ChannelId) {len : Byte} {extra : List Byte} (h : len.toNat = 4 + extra.length)
    (amp freq lo hi : Byte) :
    encode (commandOf c (.operands (fieldGroup amp freq lo hi) extra)) =
      [0xAA, selectorOf c, len, amp, freq, lo, hi] ++ extra := by
  rw [encode_commandOf, SinglePayload.bytes, bytes_fieldGroup]
  exact frame_of_length (by rw [h, List.length_append]; rfl) _

theorem encode_comb_fieldGroups {len : Byte} {extra : List Byte} (h : len.toNat = 8 + extra.length)
    (amp freq lo hi amp' freq' lo' hi' : Byte) :
    encode (.comb (.operands (fieldGroup amp freq lo hi) (fieldGroup amp' freq' lo' hi') extra)) =
      [0xAA, 0x63, len, amp, freq, lo, hi, amp', freq', lo', hi'] ++ extra := by
  rw [encode, PairPayload.bytes, bytes_fieldGroup, bytes_fieldGroup]
  exact frame_of_length (by rw [h, List.length_append]; rfl) _

/-- Settles O23: the bytes are the encoding of the command with the operands they spell, so they run it at the time of
the last one. -/
theorem commandBytesActivateTheirChannels : Obligations.CommandBytesActivateTheirChannels := by
  intro s ds rest hphase hcnt hrx hnow htime
  have hdelivered := fun i hwf hi hbytes =>
    deliveredFrameRunsItsOperation i s ds rest hwf hi hphase hcnt hrx hbytes hnow htime
  constructor
  · intro c source hsource len amp freq lo hi extra hlen hfreq hdur hbytes
    have hselector : source = selectorOf c := by
      rcases hsource with ⟨rfl, rfl⟩ | ⟨rfl, rfl⟩ | ⟨rfl, rfl⟩ <;> rfl
    subst hselector
    obtain ⟨d, hrun, -, -⟩ :=
      hdelivered _ (commandOf_wf_of_length c hlen _) (commandOf_ne_tick c _)
        (hbytes.trans (encode_commandOf_fieldGroup c hlen amp freq lo hi).symm)
    rw [exec_commandOf_valid c (groupValid_fieldGroup hfreq hdur amp)] at hrun
    refine ⟨_, hrun, ?_⟩
    simp only [State.setCh_now, State.setCh_rx, State.setCh_trig, State.setCh_trigLine, State.setCh_ch, if_true]
    exact ⟨rfl, rfl, rfl, rfl, periodOf_toNat freq, deadline_fieldGroup amp freq lo hi _, rfl, rfl⟩
  · intro len amp freq lo hi amp' freq' lo' hi' extra hlen hfreq hdur hfreq' hdur' hbytes
    obtain ⟨d, hrun, -, -⟩ :=
      hdelivered _ (comb_wf_of_length hlen _ _) nofun
        (hbytes.trans (encode_comb_fieldGroups hlen amp freq lo hi amp' freq' lo' hi').symm)
    rw [exec_comb_valid (groupValid_fieldGroup hfreq hdur amp) (groupValid_fieldGroup hfreq' hdur' amp')] at hrun
    exact ⟨_, hrun, rfl, rfl, rfl, rfl, periodOf_toNat freq, deadline_fieldGroup amp freq lo hi _, rfl, rfl,
      periodOf_toNat freq', deadline_fieldGroup amp' freq' lo' hi' _, rfl, rfl⟩

end Sys2Proof.Machine

/-! PROOFS of family 41_pulse_scheduler: the arithmetic of the direction and of the stored operands, the effect of one
tick, and the ticks of a run with no byte pending (41_pulse_scheduler R130 to R147). -/

namespace Sys2Proof.Machine

/-! The direction (R136, R141, R143). -/

theorem halfPeriod_pos {period : Period} (h : 2 ≤ period.toNat) : 0 < halfPeriod period :=
  Nat.div_pos h (by decide)

/-- Where the half-period is not 0 the direction is the parity of the quotient, on either channel. -/
theorem direction_iff (arith : ElapsedArith) (c : ChannelId) (now deadline : Nat) {period : Period}
    (h : 2 ≤ period.toNat) :
    direction arith c now deadline period = true ↔ quotient arith now deadline (halfPeriod period) % 2 = 1 := by
  rw [direction, if_neg (halfPeriod_pos h).ne', beq_iff_eq]

/-- Floor division of a time before the deadline is the remaining time divided with rounding up, negated. -/
theorem quotient_floorInt_of_le {now deadline half : Nat} (hle : now ≤ deadline) (hhalf : 0 < half) :
    quotient .floorInt now deadline half = -(((deadline - now + half - 1) / half : Nat) : Int) := by
  obtain ⟨hlow, hhigh⟩ := (Nat.div_eq_iff hhalf).mp (rfl : (deadline - now + half - 1) / half = _)
  rw [quotient, Int.ediv_eq_iff_of_pos (by omega)]
  generalize (deadline - now + half - 1) / half = n at hlow hhigh ⊢
  rw [Int.neg_mul, ← Int.natCast_mul]
  omega

/-- Before the deadline the unsigned difference is `2 ^ 64` less the remaining time (R141). -/
theorem quotient_wrapU64_of_lt {now deadline : Nat} (hlt : now < deadline) (hmax : deadline - now ≤ 2 ^ 64) (half : Nat) :
    quotient .wrapU64 now deadline half = (((2 ^ 64 - (deadline - now)) / half : Nat) : Int) := by
  have hwrap : ((now : Int) - deadline) % 2 ^ 64 = ((2 ^ 64 - (deadline - now) : Nat) : Int) := by omega
  rw [quotient, hwrap, Int.natCast_ediv]

/-- At the deadline nothing has elapsed, under either reading (R141). -/
theorem quotient_at_deadline (arith : ElapsedArith) (time half : Nat) : quotient arith time time half = 0 := by
  cases arith <;> simp [quotient]

/-- Settles O35: the quotient is the rounded-up number of remaining half-periods, negated, which has its parity. -/
theorem directionIsParityOfRemainingHalfPeriods : Obligations.DirectionIsParityOfRemainingHalfPeriods := by
  intro c now deadline period hle hperiod
  rw [direction_iff _ c now deadline hperiod, quotient_floorInt_of_le hle (halfPeriod_pos hperiod), halfPeriod]
  omega

/-- A quotient rounded up is `n + 1` exactly in the bucket `(n * half, (n + 1) * half]`. -/
theorem ceil_div_eq_succ_iff {rest half n : Nat} (hhalf : 0 < half) :
    (rest + half - 1) / half = n + 1 ↔ n * half < rest ∧ rest ≤ (n + 1) * half := by
  rw [Nat.div_eq_iff hhalf, Nat.succ_mul]
  omega

/-- Settles O36: an odd number of half-periods, rounded up, is an odd bucket. -/
theorem directionAlternatesByHalfPeriodBucket : Obligations.DirectionAlternatesByHalfPeriodBucket := by
  intro c now deadline period hle hperiod
  have hhalf : 0 < period.toNat / 2 := halfPeriod_pos hperiod
  rw [directionIsParityOfRemainingHalfPeriods c now deadline period hle hperiod, ← Nat.odd_iff]
  exact exists_congr fun j => ceil_div_eq_succ_iff hhalf

/-- Settles O37, by the wrapped quotient before the deadline and the quotient 0 at it. -/
theorem wrappedDirectionIsUnsignedQuotientParity : Obligations.WrappedDirectionIsUnsignedQuotientParity := by
  intro c now deadline period hperiod
  constructor
  · intro hlt hmax
    rw [direction_iff _ c now deadline hperiod, quotient_wrapU64_of_lt hlt hmax, halfPeriod]
    omega
  · rintro rfl
    have hzero (arith : ElapsedArith) : direction arith c now now period = false := by
      rw [← Bool.not_eq_true, direction_iff arith c now now hperiod, quotient_at_deadline]
      decide
    exact ⟨hzero _, hzero _⟩

/-! The stored operands (R142). -/

/-- The periods that a valid activation stores. -/
theorem periodOf_range {freq : Byte} (h : freq ≠ 0) : 3921 ≤ (periodOf freq).toNat ∧ (periodOf freq).toNat ≤ 1000000 :=
  have hvalid : groupValid { amp := 0, freq := freq, dur := 1 } = true :=
    (groupValid_iff _).mpr ⟨h, (by decide : (1 : Millis) ≠ 0)⟩
  (activatedChannel_inv hvalid 0).period rfl

theorem halfPeriod_periodOf (freq : Byte) : halfPeriod (periodOf freq) = 1000000 / (2 * freq.toNat) := by
  rw [halfPeriod, periodOf_toNat, Nat.div_div_eq_div_mul, Nat.mul_comm]

/-- Settles O38: the greatest operand of each field still fits. -/
theorem storedResultsFitTheirFields : Obligations.StoredResultsFitTheirFields := by
  refine ⟨fun freq hfreq => ?_, fun amplitude => ?_, fun t dur ht => ?_⟩
  · obtain ⟨hmin, hmax⟩ := periodOf_range hfreq
    have hhalf : halfPeriod (periodOf freq) = (periodOf freq).toNat / 2 := rfl
    exact ⟨periodOf_toNat freq, hmin, hmax, halfPeriod_periodOf freq, by omega, by omega⟩
  · have := amplitude.isLt
    exact ⟨levelOf_toNat amplitude, by rw [levelOf_toNat]; omega⟩
  · have hdeadline : deadlineOf t dur = t + 1000 * dur.toNat := rfl
    have := dur.isLt
    exact ⟨hdeadline, by omega⟩

/-! One tick (R130, R132, R147). -/

theorem tickedChannel_of_past {now : Nat} {r : Channel} (hactive : r.active = true) (hpast : r.deadline < now) :
    tickedChannel now r = { r with active := false } := by
  simp [tickedChannel, turnedOff, hactive, hpast]

theorem tickedChannel_of_not_past {now : Nat} {r : Channel} (h : ¬(r.active = true ∧ r.deadline < now)) :
    tickedChannel now r = r := by
  simp [tickedChannel, h]

theorem tickedChannel_of_idle {r : Channel} (hidle : r.active = false) (now : Nat) : tickedChannel now r = r :=
  tickedChannel_of_not_past (by simp [hidle])

theorem tickedLevelVB_of_past {now : Nat} {r : Channel} (hactive : r.active = true) (hpast : r.deadline < now)
    (level : Level) : tickedLevelVB now r level = 0 := by
  simp [tickedLevelVB, hactive, hpast]

theorem tickedLevelVB_of_not_past {now : Nat} {r : Channel} (h : ¬(r.active = true ∧ r.deadline < now)) (level : Level) :
    tickedLevelVB now r level = level := by
  simp [tickedLevelVB, h]

theorem tickedTrigger_of_past {now : Nat} {t : Trigger} (h : t.deadline < now) (line : Bool) :
    tickedTrigger now t = { t with active := false } ∧ tickedLine now t line = false := by
  simp [tickedTrigger, tickedLine, h]

theorem tickedTrigger_of_le {now : Nat} {t : Trigger} (h : now ≤ t.deadline) (line : Bool) :
    tickedTrigger now t = t ∧ tickedLine now t line = line := by
  simp [tickedTrigger, tickedLine, Nat.not_lt.mpr h]

/-- R133, R134, R137: an alternating channel is turned off, emits or is left alone. -/
theorem tickedOutput_alternatingTick (c : ChannelId) (now : Nat) (r : Channel) (o : AltOutput) :
    AlternatingTick now r o (tickedChannel now r) (tickedOutput .floorInt c now r o) where
  turnOff hactive hpast := ⟨tickedChannel_of_past hactive hpast, by simp [tickedOutput, hactive, hpast]⟩
  emitLevel hactive hle := ⟨tickedChannel_of_le hle, by
    simp [tickedOutput, hactive, Nat.not_lt.mpr hle, levelOf_toNat]⟩
  emitDir hactive hle hperiod := by
    simp [tickedOutput, hactive, Nat.not_lt.mpr hle, direction_iff _ _ _ _ hperiod, quotient, halfPeriod]
  idle hidle := ⟨tickedChannel_of_idle hidle now, by simp [tickedOutput, hidle]⟩

/-- Settles O29: one rule for each channel and one for the trigger. -/
theorem tickEvolvesEveryChannelAndTheTrigger : Obligations.TickEvolvesEveryChannelAndTheTrigger := fun s =>
  ⟨s.tickPass .floorInt, exec_tick s, tickedOutput_alternatingTick .VA _ _ _, tickedOutput_alternatingTick .BZ _ _ _,
    fun ⟨hactive, hpast⟩ => ⟨tickedChannel_of_past hactive hpast, tickedLevelVB_of_past hactive hpast _⟩,
    fun h => ⟨tickedChannel_of_not_past h, tickedLevelVB_of_not_past h _⟩,
    fun h => tickedTrigger_of_past h _, fun h => tickedTrigger_of_le h _, rfl, rfl, rfl, rfl⟩

/-- A tick sets no record's flag and writes none of its other fields (R147). -/
theorem tickedChannel_fields (now : Nat) (r : Channel) :
    ((tickedChannel now r).active = true → r.active = true) ∧ (tickedChannel now r).amplitude = r.amplitude ∧
    (tickedChannel now r).period = r.period ∧ (tickedChannel now r).deadline = r.deadline ∧
    (tickedChannel now r).startTime = r.startTime := by
  rcases tickedChannel_cases now r with ⟨-, -, e⟩ | ⟨-, e⟩
  · rw [e]; exact ⟨nofun, rfl, rfl, rfl, rfl⟩
  · rw [e]; exact ⟨id, rfl, rfl, rfl, rfl⟩

/-- A tick asserts neither the trigger's flag nor its line (R147). -/
theorem tickedTrigger_asserts_nothing (now : Nat) (t : Trigger) (line : Bool) :
    ((tickedTrigger now t).active = true → t.active = true) ∧ (tickedLine now t line = true → line = true) := by
  rcases tickedTrigger_cases now t line with ⟨-, et, el⟩ | ⟨-, et, el⟩
  · rw [et, el]; exact ⟨nofun, nofun⟩
  · rw [et, el]; exact ⟨id, id⟩

/-- Settles O30: the rules of the records and of the trigger; the pass does not mention the Decoder. -/
theorem tickNeverSetsAFlagOrReadsTheDecoder : Obligations.TickNeverSetsAFlagOrReadsTheDecoder := by
  intro s
  obtain ⟨hflag, hline⟩ := tickedTrigger_asserts_nothing s.now s.trig s.trigLine
  refine ⟨s.tickPass .floorInt, exec_tick s, rfl, rfl, fun c => ?_, hflag, hline, fun _ => rfl⟩
  rw [State.tickPass_ch]
  exact tickedChannel_fields s.now (s.ch c)

/-- The channel's name reaches its outputs only through the free value of log 8. -/
theorem tickedOutput_channel_congr {r : Channel} (hperiod : r.active = true → 2 ≤ r.period.toNat) (arith : ElapsedArith)
    (c c' : ChannelId) (now : Nat) (o : AltOutput) : tickedOutput arith c now r o = tickedOutput arith c' now r o := by
  rcases tickedOutput_cases arith c now r o with ⟨hactive, hpast, e⟩ | ⟨hactive, hle, e⟩ | ⟨hidle, e⟩
  · simp [tickedOutput, hactive, hpast]
  · have hdir : direction arith c now r.deadline r.period = direction arith c' now r.deadline r.period := by
      rw [Bool.eq_iff_iff, direction_iff _ _ _ _ (hperiod hactive), direction_iff _ _ _ _ (hperiod hactive)]
    simp [tickedOutput, hdir]
  · simp [tickedOutput, hidle]

/-- Settles O32: the records follow one function, and so do the outputs where the direction is no free value. -/
theorem bothAlternatingChannelsFollowOneRule : Obligations.BothAlternatingChannelsFollowOneRule := by
  intro s t hva hbz h
  rw [exec_tick] at h
  cases h
  have hpass : s.swapped.tickPass .floorInt = (s.tickPass .floorInt).swapped := by
    simp only [State.tickPass, State.swapped, tickedOutput_channel_congr hva .floorInt .VA .BZ,
      tickedOutput_channel_congr hbz .floorInt .VA .BZ]
  rw [exec_tick, hpass]

/-! The ticks of a run with no byte pending (R145, R146). -/

/-- The state after the next `k` ticks, no byte coming between them. -/
def State.afterTicks (s : State) : Nat → State
  | 0 => s
  | k + 1 => (s.afterTicks k).enterTick.tickPass .floorInt

theorem State.afterTicks_succ (s : State) (k : Nat) :
    s.afterTicks (k + 1) = (s.afterTicks k).enterTick.tickPass .floorInt := rfl

@[simp] theorem State.afterTicks_rx (s : State) (k : Nat) : (s.afterTicks k).rx = s.rx := by
  induction k with
  | zero => rfl
  | succ k ih => exact ih

@[simp] theorem State.afterTicks_nextTick (s : State) (k : Nat) : (s.afterTicks k).nextTick = s.nextTick + 1000 * k := by
  induction k with
  | zero => rfl
  | succ k ih =>
    rw [State.afterTicks_succ, State.tickPass_nextTick, State.enterTick_nextTick, ih, Nat.add_assoc, Nat.mul_succ]

theorem State.afterTicks_succ_now (s : State) (k : Nat) : (s.afterTicks (k + 1)).now = s.nextTick + 1000 * k :=
  s.afterTicks_nextTick k

/-- 60_exceptions R165: the Decoder waits and the ticks go on. -/
theorem run_of_starved {s : State} (h : s.rx = []) (k : Nat) : run k s = .next (s.afterTicks k) := by
  induction k with
  | zero => rfl
  | succ k ih =>
    have hrx : (s.afterTicks k).rx = [] := (s.afterTicks_rx k).trans h
    rw [run_add k 1 ih, run_one, step_of_tick (nextEvent_of_starved hrx), exec_tick, State.afterTicks_succ]

theorem State.afterTicks_succ_ch (s : State) (k : Nat) (c : ChannelId) :
    (s.afterTicks (k + 1)).ch c = tickedChannel (s.nextTick + 1000 * k) ((s.afterTicks k).ch c) := by
  rw [State.afterTicks_succ, State.tickPass_ch, State.enterTick_ch, ← State.afterTicks_nextTick]
  rfl

theorem State.afterTicks_succ_trig (s : State) (k : Nat) :
    (s.afterTicks (k + 1)).trig = tickedTrigger (s.nextTick + 1000 * k) (s.afterTicks k).trig := by
  rw [← State.afterTicks_nextTick]
  rfl

theorem State.afterTicks_succ_trigLine (s : State) (k : Nat) :
    (s.afterTicks (k + 1)).trigLine =
      tickedLine (s.nextTick + 1000 * k) (s.afterTicks k).trig (s.afterTicks k).trigLine := by
  rw [← State.afterTicks_nextTick]
  rfl

/-- Ticks at or before its deadline leave a record alone. -/
theorem State.afterTicks_ch_of_le {s : State} {c : ChannelId} {k : Nat}
    (h : s.nextTick + 1000 * k ≤ (s.ch c).deadline + 1000) : (s.afterTicks k).ch c = s.ch c := by
  induction k with
  | zero => rfl
  | succ k ih =>
    rw [State.afterTicks_succ_ch, ih (by omega)]
    exact tickedChannel_of_le (by omega)

/-- Ticks at or before its deadline leave the trigger alone. -/
theorem State.afterTicks_trig_of_le {s : State} {k : Nat} (h : s.nextTick + 1000 * k ≤ s.trig.deadline + 1000) :
    (s.afterTicks k).trig = s.trig ∧ (s.afterTicks k).trigLine = s.trigLine := by
  induction k with
  | zero => exact ⟨rfl, rfl⟩
  | succ k ih =>
    obtain ⟨htrig, hline⟩ := ih (by omega)
    rw [State.afterTicks_succ_trig, State.afterTicks_succ_trigLine, htrig, hline]
    exact tickedTrigger_of_le (by omega) s.trigLine

/-- The first tick past a deadline comes at most one period after it (R145). -/
theorem exists_tick_past {nextTick deadline : Nat} (h : nextTick ≤ deadline + 1000) :
    ∃ k, deadline < nextTick + 1000 * k ∧ nextTick + 1000 * k ≤ deadline + 1000 :=
  ⟨(deadline + 1000 - nextTick) / 1000, by omega, by omega⟩

/-- Settles O48: the ticks up to the deadline leave the line high, and the first one past it lowers it. -/
theorem triggerPulseLastsFiveToSixMilliseconds : Obligations.TriggerPulseLastsFiveToSixMilliseconds := by
  intro s hrx hline hdeadline hnow hnext
  obtain ⟨k, hpast, hfirst⟩ := exists_tick_past (nextTick := s.nextTick) (deadline := s.trig.deadline) (by omega)
  refine ⟨k + 1, _, run_of_starved hrx _, ?_, ?_, ?_, fun j hj => ⟨_, run_of_starved hrx j, ?_⟩⟩
  · obtain ⟨htrig, -⟩ := State.afterTicks_trig_of_le hfirst
    rw [State.afterTicks_succ_trigLine, htrig]
    exact (tickedTrigger_of_past hpast _).2
  · rw [State.afterTicks_succ_now]; omega
  · rw [State.afterTicks_succ_now]; omega
  · rw [(State.afterTicks_trig_of_le (by omega)).2, hline]

/-- R133, R138: the tick that turns a channel off sets its level to 0. -/
theorem State.tickPass_level_of_past {s : State} {c : ChannelId} (hactive : (s.ch c).active = true)
    (hpast : (s.ch c).deadline < s.now) : (s.tickPass .floorInt).level c = 0 := by
  cases c with
  | VA => exact congrArg AltOutput.level ((tickedOutput_alternatingTick .VA _ _ _).turnOff hactive hpast).2
  | VB => exact tickedLevelVB_of_past hactive hpast _
  | BZ => exact congrArg AltOutput.level ((tickedOutput_alternatingTick .BZ _ _ _).turnOff hactive hpast).2

/-- R137, R138: a tick leaves an idle channel's level alone. -/
theorem State.tickPass_level_of_idle {s : State} {c : ChannelId} (hidle : (s.ch c).active = false) :
    (s.tickPass .floorInt).level c = s.level c := by
  cases c with
  | VA => exact congrArg AltOutput.level ((tickedOutput_alternatingTick .VA _ _ _).idle hidle).2
  | VB => exact tickedLevelVB_of_not_past (fun h => Bool.false_ne_true (hidle.symm.trans h.1)) _
  | BZ => exact congrArg AltOutput.level ((tickedOutput_alternatingTick .BZ _ _ _).idle hidle).2

/-- Ticks leave an idle channel's record and level alone. -/
theorem State.afterTicks_of_idle {s : State} {c : ChannelId} (hidle : (s.ch c).active = false) (k : Nat) :
    (s.afterTicks k).ch c = s.ch c ∧ (s.afterTicks k).level c = s.level c := by
  induction k with
  | zero => exact ⟨rfl, rfl⟩
  | succ k ih =>
    obtain ⟨hch, hlevel⟩ := ih
    constructor
    · rw [State.afterTicks_succ_ch, hch, tickedChannel_of_idle hidle]
    · rw [State.afterTicks_succ, State.tickPass_level_of_idle (by rw [State.enterTick_ch, hch, hidle]), ← hlevel]
      cases c <;> rfl

/-- Settles O49: the ticks up to the deadline leave the record alone, the first one past it turns the channel off, and
later ones find it idle. -/
theorem pulseEndsAtTheFirstTickPastItsDeadline : Obligations.PulseEndsAtTheFirstTickPastItsDeadline := by
  intro s c hrx hactive hnext
  obtain ⟨k, hpast, hfirst⟩ := exists_tick_past hnext
  have hkept : (s.afterTicks k).ch c = s.ch c := State.afterTicks_ch_of_le hfirst
  have hoff : ((s.afterTicks (k + 1)).ch c).active = false := by
    rw [State.afterTicks_succ_ch, hkept, tickedChannel_of_past hactive hpast]
  have hlevel : (s.afterTicks (k + 1)).level c = 0 := by
    have hdue : (s.afterTicks k).enterTick.now = s.nextTick + 1000 * k := s.afterTicks_nextTick k
    rw [State.afterTicks_succ]
    exact State.tickPass_level_of_past (by rwa [State.enterTick_ch, hkept]) (by rwa [State.enterTick_ch, hkept, hdue])
  have hrun := run_of_starved hrx (k + 1)
  refine ⟨k + 1, _, hrun, hoff, hlevel, ?_, ?_, fun j hj => ⟨_, run_of_starved hrx j, ?_⟩, fun j => ?_⟩
  · rw [State.afterTicks_succ_now]; exact hpast
  · rw [State.afterTicks_succ_now]; exact hfirst
  · exact State.afterTicks_ch_of_le (by omega)
  · obtain ⟨hch, hsame⟩ := State.afterTicks_of_idle hoff j
    exact ⟨_, (run_add (k + 1) j hrun).trans (run_of_starved ((s.afterTicks_rx _).trans hrx) j), hch,
      hsame.trans hlevel⟩

end Sys2Proof.Machine

/-! PROOFS of family 60_exceptions: no step stops the block, the error conditions are silent, ticks keep to their grid and
to themselves, and a tick at the time of a commit sees it (60_exceptions R160 to R171). -/

namespace Sys2Proof.Machine

/-! No operation and no step stops (R160). -/

theorem exec_total (i : Instr) (s : State) : ∃ t, exec i s = .next t := by
  rcases exec_cases i s with ⟨-, e⟩ | ⟨-, targets, e⟩ | ⟨-, e⟩
  · exact ⟨_, e⟩
  · exact ⟨_, e⟩
  · exact ⟨_, e⟩

theorem step_total (s : State) : ∃ t, step s = .next t := by
  cases hev : s.nextEvent with
  | tick => rw [step_of_tick hev]; exact exec_total _ _
  | byte tm b rest =>
    cases hd : s.dec.rxByte b with
    | more d => exact ⟨_, step_of_more hev hd⟩
    | complete d i => rw [step_of_complete hev hd]; exact exec_total _ _

/-- Settles O43, by induction on the length of the run. -/
theorem theBlockNeverStops : Obligations.TheBlockNeverStops := by
  intro k
  induction k with
  | zero => exact fun s => ⟨s, rfl⟩
  | succ k ih =>
    intro s
    obtain ⟨u, hu⟩ := step_total s
    rw [run_succ k hu]
    exact ih u

/-- A run of `k + 1` steps that goes on is a first step that goes on and a run of `k` steps from there. -/
theorem run_succ_inv {k : Nat} {s t : State} (h : run (k + 1) s = .next t) :
    ∃ u, step s = .next u ∧ run k u = .next t := by
  obtain ⟨u, hu⟩ := step_total s
  exact ⟨u, hu, run_succ k hu ▸ h⟩

/-! The timer's grid (R168, R169). -/

/-- Settles O45: a step's clock, then induction on the length of the run. -/
theorem ticksStayOnTheGrid : Obligations.TicksStayOnTheGrid := by
  refine ⟨fun s t h => ?_, fun k => ?_⟩
  · rcases step_clock h with ⟨hnow, hnext⟩ | ⟨-, -, hnext⟩
    · exact .inr ⟨hnext, hnow⟩
    · exact .inl hnext
  · induction k with
    | zero => intro s t h; cases h; exact ⟨0, Nat.le_refl 0, rfl⟩
    | succ k ih =>
      intro s t h
      obtain ⟨u, hstep, hrun⟩ := run_succ_inv h
      obtain ⟨n, hn, hnext⟩ := ih u t hrun
      rcases step_clock hstep with ⟨-, hu⟩ | ⟨-, -, hu⟩
      · exact ⟨n + 1, by omega, by omega⟩
      · exact ⟨n, by omega, by omega⟩

/-! The Decoder sees the stream's bytes and nothing else (R171, 20_memory R75). -/

theorem exec_rx {i : Instr} {s t : State} (h : exec i s = .next t) : t.rx = s.rx := by
  rcases exec_cases i s with ⟨-, e⟩ | ⟨-, targets, e⟩ | ⟨-, e⟩
  · rw [e] at h; cases h; rfl
  · rw [e] at h; cases h
    obtain ⟨-, -, -, -, -, -, -, -, hrx⟩ := State.commit_frame s targets
    exact hrx
  · rw [e] at h; cases h; rfl

theorem Decoder.afterByte_of_more {d d' : Decoder} {b : Byte} (h : d.rxByte b = .more d') : d.afterByte b = d' := by
  rw [Decoder.afterByte, h]

theorem Decoder.afterByte_of_complete {d d' : Decoder} {b : Byte} {i : Instr} (h : d.rxByte b = .complete d' i) :
    d.afterByte b = d'.endFrame := by
  rw [Decoder.afterByte, h]

/-- A step leaves the stream and the Decoder alone, or hands the stream's first byte to the Decoder. -/
theorem step_stream {s t : State} (h : step s = .next t) :
    (t.rx = s.rx ∧ t.dec = s.dec) ∨ ∃ d, s.rx = d :: t.rx ∧ t.dec = s.dec.afterByte d.byte := by
  rcases step_cases h with ⟨-, rfl⟩ | ⟨tm, b, rest, hev, hbyte⟩
  · exact .inl ⟨rfl, rfl⟩
  · obtain ⟨x, hrx, rfl, -, -⟩ := nextEvent_byte hev
    refine .inr ⟨x, ?_⟩
    rcases hbyte with ⟨d, hd, rfl⟩ | ⟨d, i, hd, hi, hexec⟩
    · exact ⟨hrx, (Decoder.afterByte_of_more hd).symm⟩
    · rw [exec_rx hexec, exec_dec_of_ne_tick hi hexec]
      exact ⟨hrx, (Decoder.afterByte_of_complete hd).symm⟩

/-- Settles O14, by induction on the length of the run. -/
theorem decoderDependsOnBytesAlone : Obligations.DecoderDependsOnBytesAlone := by
  intro k
  induction k with
  | zero => intro s t h; cases h; exact ⟨0, Nat.le_refl 0, rfl, rfl⟩
  | succ k ih =>
    intro s t h
    obtain ⟨u, hstep, hrun⟩ := run_succ_inv h
    obtain ⟨n, hn, hrx, hdec⟩ := ih u t hrun
    rcases step_stream hstep with ⟨hurx, hudec⟩ | ⟨d, hsrx, hudec⟩
    · rw [hurx] at hrx hdec
      rw [hudec] at hdec
      exact ⟨n, by omega, hrx, hdec⟩
    · rw [hudec] at hdec
      rw [hsrx]
      exact ⟨n + 1, by omega, hrx, hdec⟩

/-! Starvation (R165). -/

@[simp] theorem State.afterTicks_dec (s : State) (k : Nat) : (s.afterTicks k).dec = s.dec := by
  induction k with
  | zero => rfl
  | succ k ih => exact ih

/-- Settles O16: with no byte pending the next event is the tick, and a run is its ticks. -/
theorem starvedDecoderWaitsWhileTicksGoOn : Obligations.StarvedDecoderWaitsWhileTicksGoOn := by
  intro s hstarved
  have hrx : s.rx = [] := List.isEmpty_iff.mp hstarved
  exact ⟨step_of_tick (nextEvent_of_starved hrx), fun k =>
    ⟨s.afterTicks k, run_of_starved hrx k, s.afterTicks_dec k, (s.afterTicks_rx k).trans hrx, s.afterTicks_nextTick k⟩⟩

/-! The error conditions (R160 to R164). -/

/-- A one-channel command with a condition asserts the trigger and writes no record (R163, R164). -/
theorem exec_commandOf_of_condition (c : ChannelId) {p : SinglePayload} {e : Condition} (h : singleCondition p = some e)
    (s : State) : exec (commandOf c p) s = .next s.accepted := by
  cases p with
  | short bytes => exact exec_commandOf_short c bytes s
  | operands g extra =>
    refine exec_commandOf_invalid c (fun hvalid => ?_) extra s
    simp [singleCondition, hvalid] at h

/-- A combined command with a condition asserts the trigger and writes no record (R163, R164). -/
theorem exec_comb_of_condition {p : PairPayload} {e : Condition} (h : pairCondition p = some e) (s : State) :
    exec (.comb p) s = .next s.accepted := by
  cases p with
  | short bytes => rfl
  | operands a b extra =>
    refine exec_comb_invalid (not_and_or.mp fun ⟨ha, hb⟩ => ?_) extra s
    simp [pairCondition, ha, hb] at h

theorem singleCondition_ne_framing (p : SinglePayload) : singleCondition p ≠ some .framing := by
  cases p with
  | short bytes => nofun
  | operands g extra => unfold singleCondition; split <;> simp

theorem pairCondition_ne_framing (p : PairPayload) : pairCondition p ≠ some .framing := by
  cases p with
  | short bytes => nofun
  | operands a b extra => unfold pairCondition; split <;> simp

/-- `FRAMING` is the condition of a dropped header alone (R161). -/
theorem conditionOf_eq_framing_iff (i : Instr) : conditionOf i = some .framing ↔ ∃ m x y, i = .drop m x y := by
  cases i with
  | viba p => simpa [conditionOf] using singleCondition_ne_framing p
  | vibb p => simpa [conditionOf] using singleCondition_ne_framing p
  | buzz p => simpa [conditionOf] using singleCondition_ne_framing p
  | comb p => simpa [conditionOf] using pairCondition_ne_framing p
  | ign source payload => simp [conditionOf]
  | drop m x y => simp [conditionOf]
  | tick => simp [conditionOf]

/-- Every condition but `FRAMING` asserts the trigger and writes no record (R162 to R164). -/
theorem exec_of_condition {i : Instr} {e : Condition} (h : conditionOf i = some e) (he : e ≠ .framing) (s : State) :
    exec i s = .next s.accepted := by
  cases i with
  | viba p => exact exec_commandOf_of_condition .VA h s
  | vibb p => exact exec_commandOf_of_condition .VB h s
  | buzz p => exact exec_commandOf_of_condition .BZ h s
  | comb p => exact exec_comb_of_condition h s
  | ign source payload => exact ignOnlyAssertsTheTrigger s source payload
  | drop m x y => cases h; exact absurd rfl he
  | tick => cases h

/-- Settles O28: `FRAMING` is a drop, which ends the frame; the other conditions leave `State.accepted`. -/
theorem conditionsAreSilent : Obligations.ConditionsAreSilent := by
  refine fun i s => ⟨fun h => ?_, fun h => ?_⟩
  · obtain ⟨m, x, y, rfl⟩ := (conditionOf_eq_framing_iff i).mp h
    exact exec_drop m x y s
  · rcases h with hunknown | hshort | hinvalid
    · exact exec_of_condition hunknown nofun s
    · exact exec_of_condition hshort nofun s
    · exact exec_of_condition hinvalid nofun s

/-! Commit, then tick, at one microsecond (R170 a). -/

/-- A tick at the time of a commit finds the trigger's deadline ahead. -/
theorem State.tickPass_commit_trig (s : State) (targets : List (ChannelId × FieldGroup)) (arith : ElapsedArith) :
    ((s.commit targets).tickPass arith).trig = (s.commit targets).trig ∧
    ((s.commit targets).tickPass arith).trigLine = true := by
  obtain ⟨htrig, hline, -, -, -, -, hnow, -⟩ := State.commit_frame s targets
  have hahead : (s.commit targets).now ≤ (s.commit targets).trig.deadline := by
    rw [htrig, hnow]; exact Nat.le_add_right _ _
  obtain ⟨hkept, hkeptLine⟩ := tickedTrigger_of_le hahead (s.commit targets).trigLine
  exact ⟨hkept, hkeptLine.trans hline⟩

/-- A record ticked at its activation time stays, and its amplitude is emitted. -/
theorem activatedChannel_ticked_at_its_start (c : ChannelId) (g : FieldGroup) (t : Nat) (o : AltOutput) :
    tickedChannel t (activatedChannel g t) = activatedChannel g t ∧
    (tickedOutput .floorInt c t (activatedChannel g t) o).level.toNat = 4 * g.amp.toNat :=
  (tickedOutput_alternatingTick c t (activatedChannel g t) o).emitLevel rfl (Nat.le_add_right _ _)

/-- Settles O34: the trigger's deadline and the record's lie at or after the time of the commit. -/
theorem tickAfterACommitSeesTheNewRecord : Obligations.TickAfterACommitSeesTheNewRecord := by
  refine fun s => ⟨fun i hacc => ?_, fun g extra hfreq hdur => ?_⟩
  · rcases exec_cases i s with ⟨rfl, -⟩ | ⟨-, targets, e⟩ | ⟨⟨_, _, _, rfl⟩, -⟩
    · cases hacc
    · obtain ⟨htrig, hline⟩ := s.tickPass_commit_trig targets .floorInt
      exact ⟨_, _, e, exec_tick _, hline, htrig⟩
    · cases hacc
  · obtain ⟨hkept, hlevel⟩ := activatedChannel_ticked_at_its_start .VA g s.now s.outVA
    have hexec := exec_commandOf_valid .VA ((groupValid_iff g).mpr ⟨hfreq, hdur⟩) extra s
    exact ⟨_, _, hexec, exec_tick _, hkept, (congrArg Channel.active hkept).trans rfl, hlevel⟩

end Sys2Proof.Machine

/-! PROOFS of family 70_reset_and_hazards: the recovery sequence realigns the Decoder. -/

namespace Sys2Proof.Machine

/-! Whole frames keep the Decoder at a frame boundary (40_frame_commands R100, R113, R114). -/

/-- The Decoder is between frames. -/
def Decoder.AtBoundary (d : Decoder) : Prop := d.phase = .hdr ∧ d.cnt = 0

theorem Decoder.endFrame_atBoundary (d : Decoder) : d.endFrame.AtBoundary := ⟨rfl, rfl⟩

theorem Decoder.AtBoundary.afterEncode {d : Decoder} (h : d.AtBoundary) {i : Instr} (hwf : i.wf = true)
    (hi : i ≠ .tick) : ((encode i).foldl Decoder.afterByte d).AtBoundary := by
  obtain ⟨init, last, e, e', j, henc, htake, hlast, -⟩ := Decoder.takes_encode d h.1 h.2 hwf hi
  rw [henc, List.foldl_append, htake.foldl, List.foldl_cons, Decoder.afterByte_of_complete hlast]
  exact e'.endFrame_atBoundary

theorem Decoder.AtBoundary.afterEncodes {d : Decoder} (h : d.AtBoundary) {is : List Instr}
    (his : ∀ i ∈ is, i.wf = true ∧ i ≠ .tick) : ((is.flatMap encode).foldl Decoder.afterByte d).AtBoundary := by
  induction is generalizing d with
  | nil => exact h
  | cons i is ih =>
    obtain ⟨⟨hwf, hi⟩, hrest⟩ := List.forall_mem_cons.mp his
    rw [List.flatMap_cons, List.foldl_append]
    exact ih (h.afterEncode hwf hi) hrest

/-! Zero bytes end the frame in progress: each brings its end one byte nearer (R195). -/

/-- How many zero bytes end the frame in progress: those its header or its payload still lacks. -/
def Decoder.zerosToBoundary (d : Decoder) : Nat :=
  match d.phase with
  | .hdr => (3 - d.cnt.toNat) % 3
  | .payload => d.hdr[2].toNat - d.cnt.toNat

theorem Decoder.zerosToBoundary_of_hdr {d : Decoder} (hp : d.phase = .hdr) :
    d.zerosToBoundary = (3 - d.cnt.toNat) % 3 := by
  rw [Decoder.zerosToBoundary, hp]

theorem Decoder.zerosToBoundary_of_payload {d : Decoder} (hp : d.phase = .payload) :
    d.zerosToBoundary = d.hdr[2].toNat - d.cnt.toNat := by
  rw [Decoder.zerosToBoundary, hp]

theorem Decoder.zerosToBoundary_le (d : Decoder) : d.zerosToBoundary ≤ 255 := by
  have hlen := d.hdr[2].isLt
  cases hp : d.phase with
  | hdr => rw [Decoder.zerosToBoundary_of_hdr hp]; omega
  | payload => rw [Decoder.zerosToBoundary_of_payload hp]; omega

theorem Decoder.Inv.atBoundary_of_zerosToBoundary_eq_zero {d : Decoder} (h : d.Inv) (hz : d.zerosToBoundary = 0) :
    d.AtBoundary := by
  cases hp : d.phase with
  | hdr =>
    have hcnt := h.header hp
    rw [Decoder.zerosToBoundary_of_hdr hp] at hz
    exact ⟨hp, BitVec.eq_of_toNat_eq (show d.cnt.toNat = 0 by omega)⟩
  | payload =>
    obtain ⟨hlt, -⟩ := h.payload hp
    rw [Decoder.zerosToBoundary_of_payload hp] at hz
    omega

theorem Decoder.Inv.afterByte {d : Decoder} (h : d.Inv) (b : Byte) : (d.afterByte b).Inv := by
  have heff := h.rxByte b
  cases hb : d.rxByte b with
  | more d' => rw [hb] at heff; rw [Decoder.afterByte_of_more hb]; exact heff
  | complete d' i => rw [Decoder.afterByte_of_complete hb]; exact d'.endFrame_inv

theorem Decoder.AtBoundary.zerosToBoundary {d : Decoder} (h : d.AtBoundary) : d.zerosToBoundary = 0 := by
  obtain ⟨hp, hc⟩ := h
  rw [Decoder.zerosToBoundary_of_hdr hp, hc]; rfl

theorem Decoder.afterByte_second {d : Decoder} (hp : d.phase = .hdr) (hc : d.cnt = 1) (b : Byte) :
    (d.afterByte b).phase = .hdr ∧ (d.afterByte b).cnt = 2 := by
  rw [Decoder.afterByte_of_more (Decoder.rxByte_second hp hc b)]
  exact ⟨hp, rfl⟩

/-- A zero as the third header byte ends the frame: a drop, or an accepted frame of length 0. -/
theorem Decoder.afterByte_zero_third {d : Decoder} (hp : d.phase = .hdr) (hc : d.cnt = 2) :
    (d.afterByte 0).AtBoundary := by
  have hrow := Decoder.rxByte_third hp hc 0
  by_cases hm : d.hdr[0] ≠ 0xAA
  · rw [Decoder.afterByte_of_complete (hrow.trans (if_pos hm))]
    exact Decoder.endFrame_atBoundary _
  · rw [Decoder.afterByte_of_complete (hrow.trans ((if_neg hm).trans (if_pos rfl)))]
    exact Decoder.endFrame_atBoundary _

theorem Decoder.afterByte_payload_more {d : Decoder} (hp : d.phase = .payload) (hlt : d.cnt.toNat + 1 < d.hdr[2].toNat)
    (b : Byte) :
    (d.afterByte b).phase = .payload ∧ (d.afterByte b).cnt.toNat = d.cnt.toNat + 1 ∧ (d.afterByte b).hdr = d.hdr := by
  have hlen := d.hdr[2].isLt
  rw [Decoder.afterByte_of_more ((Decoder.rxByte_payload hp b).trans (if_pos hlt))]
  exact ⟨hp, BitVec.toNat_add_of_lt (show d.cnt.toNat + 1 < 2 ^ 8 by omega), rfl⟩

theorem Decoder.afterByte_payload_last {d : Decoder} (hp : d.phase = .payload) (hge : d.hdr[2].toNat ≤ d.cnt.toNat + 1)
    (b : Byte) : (d.afterByte b).AtBoundary := by
  rw [Decoder.afterByte_of_complete ((Decoder.rxByte_payload hp b).trans (if_neg hge.not_gt))]
  exact Decoder.endFrame_atBoundary _

theorem Decoder.Inv.zerosToBoundary_afterByte_zero {d : Decoder} (h : d.Inv) {k : Nat}
    (hz : d.zerosToBoundary = k + 1) : (d.afterByte 0).zerosToBoundary = k := by
  cases hp : d.phase with
  | hdr =>
    have hcnt := h.header hp
    rw [Decoder.zerosToBoundary_of_hdr hp] at hz
    obtain hone | htwo : d.cnt.toNat = 1 ∨ d.cnt.toNat = 2 := by omega
    · obtain ⟨hphase, hnext⟩ := Decoder.afterByte_second hp (BitVec.eq_of_toNat_eq hone) 0
      rw [Decoder.zerosToBoundary_of_hdr hphase, hnext]
      rw [hone] at hz
      exact Nat.succ.inj hz
    · rw [(Decoder.afterByte_zero_third hp (BitVec.eq_of_toNat_eq htwo)).zerosToBoundary]
      omega
  | payload =>
    rw [Decoder.zerosToBoundary_of_payload hp] at hz
    by_cases hlt : d.cnt.toNat + 1 < d.hdr[2].toNat
    · obtain ⟨hphase, hnext, hhdr⟩ := Decoder.afterByte_payload_more hp hlt 0
      rw [Decoder.zerosToBoundary_of_payload hphase, hnext, hhdr]
      omega
    · rw [(Decoder.afterByte_payload_last hp (not_lt.mp hlt) 0).zerosToBoundary]
      omega

theorem Decoder.Inv.atBoundary_after_zeros {d : Decoder} (h : d.Inv) {k : Nat} (hz : d.zerosToBoundary = k) :
    ((List.replicate k (0 : Byte)).foldl Decoder.afterByte d).AtBoundary := by
  induction k generalizing d with
  | zero => exact h.atBoundary_of_zerosToBoundary_eq_zero hz
  | succ k ih => exact ih (h.afterByte 0) (h.zerosToBoundary_afterByte_zero hz)

/-! What follows the frame in progress, zeros and recovery bytes together, is a sequence of whole frames (R195). -/

/-- The frames that the recovery bytes complete, by how many zeros of an unfinished header stand before them. -/
def recoveryFrames : Fin 3 → List Instr
  | 0 => [.ign 0xAA [0], .drop 0 0xAA 0, .drop 2 0 0]
  | 1 => [.drop 0 0xAA 0xAA, .drop 1 0 0, .ign 0 [0, 0]]
  | 2 => [.drop 0 0 0xAA, .ign 1 [], .drop 0 0xAA 0, .drop 2 0 0]

theorem recoveryFrames_encode (r : Fin 3) :
    (recoveryFrames r).flatMap encode = List.replicate r 0 ++ recoverySequence := by
  revert r; decide

theorem recoveryFrames_wf (r : Fin 3) : ∀ i ∈ recoveryFrames r, i.wf = true ∧ i ≠ .tick := by
  revert r; decide

theorem zeroDrops_encode (q : Nat) :
    (List.replicate q (Instr.drop 0 0 0)).flatMap encode = List.replicate (q * 3) (0 : Byte) := by
  have hdrop : encode (.drop 0 0 0) = List.replicate 3 0 := rfl
  rw [List.flatMap_replicate, hdrop, List.flatten_replicate_replicate]

/-- The zeros that follow a boundary: a drop for each three of them, and the rest with the recovery bytes. -/
theorem zeros_recovery_eq_encodes (m : Nat) :
    List.replicate m (0 : Byte) ++ recoverySequence =
      (List.replicate (m / 3) (Instr.drop 0 0 0) ++ recoveryFrames (Fin.ofNat 3 m)).flatMap encode := by
  rw [List.flatMap_append, zeroDrops_encode, recoveryFrames_encode, ← List.append_assoc,
    List.replicate_append_replicate]
  exact congrArg (List.replicate · 0 ++ _) (Nat.div_add_mod' m 3).symm

theorem Decoder.AtBoundary.after_zeros_recovery {d : Decoder} (h : d.AtBoundary) (m : Nat) :
    ((List.replicate m (0 : Byte) ++ recoverySequence).foldl Decoder.afterByte d).AtBoundary := by
  rw [zeros_recovery_eq_encodes]
  refine h.afterEncodes fun i hi => ?_
  rcases List.mem_append.mp hi with hdrop | hframe
  · rw [List.eq_of_mem_replicate hdrop]; decide
  · exact recoveryFrames_wf _ i hframe

/-- Settles O15: at most 255 of the zeros end the frame in progress; what follows is a sequence of whole frames. -/
theorem recoverySequenceRealignsTheDecoder : Obligations.RecoverySequenceRealignsTheDecoder := by
  intro d n hinv hn
  obtain ⟨m, rfl⟩ := Nat.exists_eq_add_of_le (d.zerosToBoundary_le.trans hn)
  rw [← List.replicate_append_replicate, List.append_assoc, List.foldl_append]
  exact (hinv.atBoundary_after_zeros rfl).after_zeros_recovery m

end Sys2Proof.Machine
